-- ==== Sys2Proof/Word.lean ====
section
/-!
DEFINITION. The word types of the block (00_scope.md R5, R7).

R5's widths REG_W, MSG_W, ADDR_W and CNT_W are parameters of Config. The types here are the places that the formats fix: a command word has 36 bits with 16 for each operand (30_encoding.md R70), a payload word and a frame
word have 16 (R71, 41_telemetry_encoder.md R126). (notes/assumptions/17.md)
-/

namespace Sys2Proof

/-- One byte of a frame, a buffer or a snapshot. -/
abbrev Byte := BitVec 8

/-- A place of 16 bits: a register, an operand, a payload or frame word (00_scope.md R7, R8). -/
abbrev Half := BitVec 16

/-- A command word, 36 bits (30_encoding.md R70). -/
abbrev Cmd := BitVec 36

/-- The bit pattern of an IEEE 754 binary64 value (10_state.md R28, 92_eei_decisions.md D12). -/
abbrev F64 := BitVec 64

end Sys2Proof
end

