-- ==== Sys2Proof/Syntax.lean ====
section
/-!
DEFINITION. The instructions: one constructor for each row of spec/opcode_table.json (30_encoding.md R73), with the
operands the command word and the SWRITE payload carry (R70, R71, R74). Draws are a separate interface (10_state.md
R31, R32): they come with the request, not with the instruction.
-/

namespace Sys2Proof

inductive Instr where
  /-- HREAD, op 0x1: start register `a`, byte count `c` -/
  | hread (a c : Half)
  /-- SREAD, op 0x2: start register `a`, register count `c` -/
  | sread (a c : Half)
  /-- SWRITE, op 0x3: start register `a`, length `n`, and the payload words that follow the command word -/
  | swrite (a n : Half) (payload : List Half)
  /-- ENCS, op 0x4 -/
  | encs
  /-- ENCD, op 0x5 -/
  | encd
  /-- TICK, op 0x6 -/
  | tick
  /-- GPOS, op 0x7 -/
  | gpos
  /-- GADV, op 0x8 -/
  | gadv
  /-- GENC, op 0x9, with includeAltitude = 0, the only admitted value (43_geo_simulator.md R176) -/
  | genc
  deriving DecidableEq, Repr

end Sys2Proof
end

