-- ==== Sys2Proof/WellFormed.lean ====
section
/-!
DEFINITION. Which instruction terms are instructions: an SWRITE carries exactly as many payload words as its length
field says (30_encoding.md R71, 60_exceptions.md R211(d)). Every other term is one by its type.
-/

namespace Sys2Proof

/-- The check of 30_encoding.md R71: `len(values) = B`. -/
def Instr.wellFormed : Instr → Bool
  | .hread _ _ => true
  | .sread _ _ => true
  | .swrite _ n payload => payload.length == n.toNat
  | .encs => true
  | .encd => true
  | .tick => true
  | .gpos => true
  | .gadv => true
  | .genc => true

end Sys2Proof
end

