-- ==== Sys2Proof/Decode.lean ====
section
/-!
DEFINITION. Decoding and encoding of requests (30_encoding.md). The decoder is total on all 2^36 command words and any
payload (R75), and rejects by name.
-/

namespace Sys2Proof

/-- Why a command word is illegal (30_encoding.md R75). -/
inductive IllegalReason where
  /-- `op` is 0x0 or 0xA to 0xF -/
  | reservedOpcode (op : BitVec 4)
  /-- an opcode that uses neither field, with `A` or `B` not 0 -/
  | fieldNotZero (op : BitVec 4)
  /-- GENC with `includeAltitude = 1` (43_geo_simulator.md R176) -/
  | altitude
  deriving DecidableEq, Repr

/-- What a request reads as. -/
inductive Decoded where
  /-- an instruction of 30_encoding.md R73 -/
  | instr (i : Instr)
  /-- an illegal word, answered with ILLEGAL_COMMAND (30_encoding.md R75) -/
  | illegal (why : IllegalReason)
  /-- an SWRITE whose payload is not `B` words long: not a run (60_exceptions.md R211(d)) -/
  | payloadMismatch
  deriving DecidableEq, Repr

/-- `op`, bits 35:32 (30_encoding.md R70). -/
def cmdOp (w : Cmd) : BitVec 4 := w.extractLsb' 32 4

/-- `A`, bits 31:16 (30_encoding.md R70). -/
def cmdA (w : Cmd) : Half := w.extractLsb' 16 16

/-- `B`, bits 15:0 (30_encoding.md R70). -/
def cmdB (w : Cmd) : Half := w.extractLsb' 0 16

/-- An opcode that uses neither field: the word is legal iff both are 0 (30_encoding.md R75). -/
def decodeBare (w : Cmd) (i : Instr) : Decoded :=
  if cmdA w = 0 ∧ cmdB w = 0 then .instr i else .illegal (.fieldNotZero (cmdOp w))

/-- GENC: `A` must be 0 and `B` too; `B = 1` asks for the altitude the block does not have (30_encoding.md R75,
43_geo_simulator.md R176). -/
def decodeGenc (w : Cmd) : Decoded :=
  if cmdA w = 0 ∧ cmdB w = 1 then .illegal .altitude else decodeBare w .genc

/-- SWRITE reads exactly `B` payload words after the command word (30_encoding.md R70, R71). -/
def decodeSwrite (w : Cmd) (payload : List Half) : Decoded :=
  if payload.length = (cmdB w).toNat then .instr (.swrite (cmdA w) (cmdB w) payload) else .payloadMismatch

/-- The opcode map of 30_encoding.md R73, with the illegal words of R75. Only SWRITE looks at the payload
(notes/assumptions/6.md). -/
def decode (w : Cmd) (payload : List Half) : Decoded :=
  match (cmdOp w).toNat with
  | 1 => .instr (.hread (cmdA w) (cmdB w))
  | 2 => .instr (.sread (cmdA w) (cmdB w))
  | 3 => decodeSwrite w payload
  | 4 => decodeBare w .encs
  | 5 => decodeBare w .encd
  | 6 => decodeBare w .tick
  | 7 => decodeBare w .gpos
  | 8 => decodeBare w .gadv
  | 9 => decodeGenc w
  | _ => .illegal (.reservedOpcode (cmdOp w))

/-- A command word from its three fields: `op·2^32 + A·2^16 + B` (30_encoding.md R70, R80). -/
def cmdWord (op : BitVec 4) (a b : Half) : Cmd :=
  BitVec.ofNat 36 (op.toNat * 2 ^ 32 + a.toNat * 2 ^ 16 + b.toNat)

/-- The command word of an instruction (30_encoding.md R73, R80). -/
def encodeWord : Instr → Cmd
  | .hread a c => cmdWord 1 a c
  | .sread a c => cmdWord 2 a c
  | .swrite a n _ => cmdWord 3 a n
  | .encs => cmdWord 4 0 0
  | .encd => cmdWord 5 0 0
  | .tick => cmdWord 6 0 0
  | .gpos => cmdWord 7 0 0
  | .gadv => cmdWord 8 0 0
  | .genc => cmdWord 9 0 0

/-- The payload words that follow the command word, in list order (30_encoding.md R71, R80). -/
def encodePayload : Instr → List Half
  | .swrite _ _ payload => payload
  | .hread _ _ | .sread _ _ | .encs | .encd | .tick | .gpos | .gadv | .genc => []

/-- The assembled form of a transaction (30_encoding.md R80). -/
def encode (i : Instr) : Cmd × List Half := (encodeWord i, encodePayload i)

/-- A row of spec/opcode_table.json: the bits that must match. -/
structure TableRow where
  mask : Cmd
  pattern : Cmd
  deriving DecidableEq, Repr

/-- The row of each instruction in spec/opcode_table.json. -/
def Instr.row : Instr → TableRow
  | .hread _ _ => ⟨0xF00000000, 0x100000000⟩
  | .sread _ _ => ⟨0xF00000000, 0x200000000⟩
  | .swrite _ _ _ => ⟨0xF00000000, 0x300000000⟩
  | .encs => ⟨0xFFFFFFFFF, 0x400000000⟩
  | .encd => ⟨0xFFFFFFFFF, 0x500000000⟩
  | .tick => ⟨0xFFFFFFFFF, 0x600000000⟩
  | .gpos => ⟨0xFFFFFFFFF, 0x700000000⟩
  | .gadv => ⟨0xFFFFFFFFF, 0x800000000⟩
  | .genc => ⟨0xFFFFFFFFF, 0x900000000⟩

/-- The word lies in the row. -/
def TableRow.hits (r : TableRow) (w : Cmd) : Bool := w &&& r.mask == r.pattern

/-- The command word and the all-zero payload of the table word whose low `nbits` bits are those of `w`; none where
the number does not fit in the 36 bits of a command word (30_encoding.md R70). An SWRITE's payload words are the bits
above the table's, all 0 (notes/assumptions/18.md). -/
def tableWord (nbits w : Nat) : Option (Cmd × List Half) :=
  let v := w % 2 ^ nbits
  if v < 2 ^ 36 then
    let word := BitVec.ofNat 36 v
    some (word, if cmdOp word = 3 then List.replicate (cmdB word).toNat 0 else [])
  else none

/-- The instruction the decoder reads from the opcode table's word `w`. -/
def decodeTableWord (nbits w : Nat) : Option Instr :=
  match tableWord nbits w with
  | none => none
  | some (word, payload) =>
    match decode word payload with
    | .instr i => some i
    | .illegal _ => none
    | .payloadMismatch => none

end Sys2Proof
end

