-- ==== Sys2Proof/Config.lean ====
section
/-!
DEFINITION. The parameters of 00_scope.md R5 and the free values.

A configuration is plain data. Every parameter whose value the spec states has that value as its default; the OPEN
ones have none and must be given. Which configurations are admitted (R6) is `configValid` in Machine/Params.lean.
-/

namespace Sys2Proof

/-- A closed range of integers (00_scope.md R5; closed by D21). -/
structure IntRange where
  lo : Nat
  hi : Nat
  deriving DecidableEq, Repr

/-- A closed range of binary64 values (00_scope.md R5; closed by D21). -/
structure FloatRange where
  lo : F64
  hi : F64
  deriving DecidableEq, Repr

/-- `STATION_LAYOUT`: the byte offset of each field of a station frame (41_telemetry_encoder.md R124, D10). -/
structure StationLayout where
  status : Nat := 0
  msg : Nat := 2
  count : Nat := 4
  signal : Nat := 6
  quality : Nat := 8
  deriving DecidableEq, Repr

/-- `DEVICE_LAYOUT`: the byte offset of each field of a device frame (41_telemetry_encoder.md R125, D11). -/
structure DeviceLayout where
  status : Nat := 0
  msg : Nat := 2
  quality : Nat := 4
  geo : Nat := 6
  deriving DecidableEq, Repr

/-- `DEVICE_CLASS` of 00_scope.md R5: which encoder TICK runs. -/
inductive DeviceClass where
  | station
  | device
  deriving DecidableEq, Repr

/-- The byte order of a binary64 field. 20_memory.md R54 takes most significant byte first; 93_implementation_defined.md
lists the order as a parameter with that default (notes/assumptions/14.md, DESIGN CHOICE). -/
inductive FloatOrder where
  | big
  | little
  deriving DecidableEq, Repr

/-- The parameters of 00_scope.md R5, less `SNAPSHOT` and `GEO_INIT`, which are inputs of reset. -/
structure Config where
  defaultCap : Nat := 65536
  /-- `REG_W`: a register holds a value below 2^REG_W (10_state.md R21) -/
  regW : Nat := 16
  /-- `MSG_W`: the message counter wraps at 2^MSG_W (10_state.md R24) -/
  msgW : Nat := 16
  /-- `ADDR_W`: an address operand is below 2^ADDR_W (30_encoding.md R74) -/
  addrW : Nat := 16
  /-- `CNT_W`: a count operand is below 2^CNT_W (30_encoding.md R74) -/
  cntW : Nat := 16
  stationFrameBytes : Nat := 40
  deviceFrameBytes : Nat := 22
  stationDropPeriod : Nat := 23
  deviceDropPeriod : Nat := 17
  stationInc : IntRange := ⟨1, 50⟩
  deviceInc : IntRange := ⟨1, 3⟩
  devcountRange : IntRange := ⟨17, 23⟩
  signalRange : IntRange := ⟨70, 87⟩
  /-- -70.0 and -40.0 -/
  stationLqRange : FloatRange := ⟨0xC051800000000000, 0xC044000000000000⟩
  deviceLqRange : IntRange := ⟨80, 100⟩
  stationLayout : StationLayout := {}
  deviceLayout : DeviceLayout := {}
  floatOrder : FloatOrder := .big
  /-- OPEN (D16) -/
  frameBase : Nat
  /-- OPEN (D17) -/
  deviceClass : DeviceClass
  /-- OPEN (D19) -/
  geoStep : F64
  /-- OPEN (D28); no rule reads it (60_exceptions.md R209) -/
  tickInterval : Nat
  deriving DecidableEq, Repr

/-- The configuration `State.reset` stands in: the spec's defaults, and for the OPEN parameters the values of
notes/assumptions/3.md (DESIGN CHOICE, unsafe). No meaning uses it: a meaning reads the configuration its state holds. -/
def Config.atReset : Config where
  frameBase := 0
  deviceClass := .station
  geoStep := 0x3FF0000000000000
  tickInterval := 1

/-- Free value: the latitude drawn at reset when no reference point is supplied, before it is made finite
(70_reset_and_hazards.md R223, D20; notes/assumptions/4.md). -/
opaque Config.freeLatitude : BitVec 64

/-- Free value: the longitude drawn at reset when no reference point is supplied, before it is made finite
(70_reset_and_hazards.md R223, D20; notes/assumptions/4.md). -/
opaque Config.freeLongitude : BitVec 64

/-- Free value: the sign and payload of the n-th sum that has a NaN operand, for which the spec states no bit pattern
(notes/assumptions/10.md). -/
opaque Config.freeNaN : Nat → BitVec 64

/-- The places whose width is a parameter of 00_scope.md R5, or that hold a value of such a width. -/
inductive Place where
  /-- a register, REG_W bits -/
  | register
  /-- an address operand, ADDR_W bits -/
  | address
  /-- a count operand, CNT_W bits -/
  | count
  /-- the 16-bit field of a frame that carries the message counter, which has MSG_W bits -/
  | counterField
  deriving DecidableEq, Repr

/-- Free value: what a place of the given width takes of a value that does not fit in it, for which the spec states no
result (notes/assumptions/17.md). It depends on the place, the width and the value, so that equal reads and equal writes
act alike (20_memory.md R60). Nothing reads it under the spec's widths. -/
opaque Config.freeFit : Place → Nat → Nat → BitVec 16

end Sys2Proof
end

