-- ==== Sys2Proof/Machine/Bytes.lean ====
section
/-!
DEFINITION. Byte order: BE16, BE64 and PAIR of 00_scope.md R8 (20_memory.md R52, R53, R54).
-/

namespace Sys2Proof.Machine

/-- `r[15:8]` (00_scope.md R7). -/
def highByte (v : Half) : Byte := v.extractLsb' 8 8

/-- `r[7:0]` (00_scope.md R7). -/
def lowByte (v : Half) : Byte := v.extractLsb' 0 8

/-- The 16-bit value of a big-endian pair of bytes (20_memory.md R52). -/
def ofBytes (h l : Byte) : Half := BitVec.ofNat 16 (h.toNat * 256 + l.toNat)

/-- `BE16` (00_scope.md R8). -/
def be16 (v : Half) : List Byte := [highByte v, lowByte v]

/-- `BE64` (00_scope.md R8): the eight bytes of the bit pattern, most significant first. -/
def be64 (x : F64) : List Byte :=
  [x.extractLsb' 56 8, x.extractLsb' 48 8, x.extractLsb' 40 8, x.extractLsb' 32 8,
   x.extractLsb' 24 8, x.extractLsb' 16 8, x.extractLsb' 8 8, x.extractLsb' 0 8]

/-- `PAIR` (00_scope.md R8): `W[j] = F[2j]·256 + F[2j+1]`. Frames have even length (R6), so no byte is left over. -/
def pairWords : List Byte → List Half
  | h :: l :: rest => ofBytes h l :: pairWords rest
  | [_] => []
  | [] => []

/-- The eight bytes of a binary64 field in the configured order (20_memory.md R54: most significant first, the default;
93_implementation_defined.md makes the order a parameter). -/
def floatBytes (o : FloatOrder) (x : F64) : List Byte :=
  match o with
  | .big => be64 x
  | .little => (be64 x).reverse

/-- `F[off..] <- bs`. Bytes past the end of the frame are dropped; an admitted layout has none (00_scope.md R6). -/
def putBytes (frame : List Byte) (off : Nat) : List Byte → List Byte
  | [] => frame
  | b :: bs => putBytes (frame.set off b) (off + 1) bs

end Sys2Proof.Machine
end

