-- ==== Sys2Proof/Machine/Float.lean ====
section
/-!
DEFINITION. IEEE 754 binary64 on bit patterns: comparison, and the addition `+f` of 00_scope.md R8, rounded to nearest
with ties to even. The spec takes the format and the addition from general knowledge and says so; the details (gradual
underflow, infinities, signed zeros) are those of the standard (notes/assumptions/11.md, PRESUMED).

Values are computed exactly, as integers in units of 2^-1074, the least positive binary64 value, and rounded once.
-/

namespace Sys2Proof.Machine

/-- The sign bit. -/
def fSign (x : F64) : Bool := x.getLsbD 63

/-- The biased exponent field, bits 62:52. -/
def fExponent (x : F64) : Nat := (x.extractLsb' 52 11).toNat

/-- The fraction field, bits 51:0. -/
def fFraction (x : F64) : Nat := (x.extractLsb' 0 52).toNat

/-- The bits below the sign; they order finite magnitudes. -/
def fMagnitude (x : F64) : Nat := (x.extractLsb' 0 63).toNat

def fIsFinite (x : F64) : Bool := fExponent x != 2047

def fIsNaN (x : F64) : Bool := fExponent x == 2047 && fFraction x != 0

def fIsInf (x : F64) : Bool := fExponent x == 2047 && fFraction x == 0

def fIsZero (x : F64) : Bool := fMagnitude x == 0

/-- A number that orders all values but NaN: -0.0 and +0.0 have the same. -/
def fKey (x : F64) : Int := if fSign x then -(fMagnitude x : Int) else (fMagnitude x : Int)

/-- `x ≤ y`, false where either is NaN. -/
def fLe (x y : F64) : Bool := !fIsNaN x && !fIsNaN y && decide (fKey x ≤ fKey y)

/-- `|x| ≤ bound`, false where either is NaN. -/
def fAbsLe (x bound : F64) : Bool := !fIsNaN x && !fIsNaN bound && decide (fMagnitude x ≤ fMagnitude bound)

/-- `|x|` of a finite value in units of 2^-1074. -/
def fUnits (x : F64) : Nat :=
  if fExponent x = 0 then fFraction x else (2 ^ 52 + fFraction x) * 2 ^ (fExponent x - 1)

/-- The exact value of a finite bit pattern, in units of 2^-1074. -/
def fScaled (x : F64) : Int := if fSign x then -(fUnits x : Int) else (fUnits x : Int)

/-- A bit pattern from a sign and the 63 bits below it. -/
def fOfMagnitude (sign : Bool) (mag : Nat) : F64 :=
  BitVec.ofNat 64 ((if sign then 2 ^ 63 else 0) + mag % 2 ^ 63)

/-- The magnitude of an infinity. -/
def infMagnitude : Nat := 2047 * 2 ^ 52

/-- How many bits below the 53 of a significand a number has. -/
def excessBits (n : Nat) : Nat := if n < 2 ^ 53 then 0 else Nat.log2 n - 52

/-- The magnitude bits of `num / den` units of 2^-1074 rounded to nearest, ties to even; an overflow gives infinity.
For `den = 0` the answer means nothing. -/
def roundMagnitude (num den : Nat) : Nat :=
  let shift := excessBits (num / den)
  let unit := den * 2 ^ shift
  let q := num / unit
  let r := num % unit
  let up := if unit < 2 * r ∨ (2 * r = unit ∧ q % 2 = 1) then 1 else 0
  min (shift * 2 ^ 52 + q + up) infMagnitude

/-- An exact integer of 2^-1074 units, rounded. `zeroSign` is the sign of an exact zero. -/
def fOfScaled (z : Int) (zeroSign : Bool) : F64 :=
  if z = 0 then fOfMagnitude zeroSign 0 else fOfMagnitude (decide (z < 0)) (roundMagnitude z.natAbs 1)

/-- Any NaN pattern: the free bits with the exponent forced to all ones and the fraction to something but 0. -/
def fNaN (raw : BitVec 64) : F64 :=
  let pattern := raw ||| 0x7FF0000000000000
  if fFraction raw = 0 then pattern ||| 1 else pattern

/-- `+f` (00_scope.md R8): binary64 addition, round to nearest, ties to even. An exact zero sum is +0.0 unless both
addends are -0.0. `nan` is what a sum that is not a number reads as, a free value. Adding a zero to a NaN leaves it as it
was: the corner case of 41_telemetry_encoder.md R128 says a delta of ±0 leaves the position unchanged but for -0.0
(notes/assumptions/10.md). -/
def fAdd (nan x y : F64) : F64 :=
  if fIsNaN x then (if fIsZero y then x else nan)
  else if fIsNaN y then nan
  else if fIsInf x then (if fIsInf y && fSign x != fSign y then nan else x)
  else if fIsInf y then y
  else fOfScaled (fScaled x + fScaled y) (fSign x && fSign y)

/-- A finite value from any 64 bits; every finite value is its own. -/
def fFinite (raw : BitVec 64) : F64 := if fIsFinite raw then raw else 0

end Sys2Proof.Machine
end

