-- ==== Sys2Proof/Machine/Params.lean ====
section
/-!
DEFINITION. Which configurations are admitted (00_scope.md R6), what a place of a given width takes (R5), and which draws lie in their sets (10_state.md R32).
-/

namespace Sys2Proof.Machine

/-- A non-empty integer range within 0..65535 (00_scope.md R6). -/
def rangeValid (r : IntRange) : Bool := decide (r.lo ≤ r.hi) && decide (r.hi ≤ 65535)

/-- Finite endpoints, the lower one not above the upper one (00_scope.md R6). -/
def floatRangeValid (r : FloatRange) : Bool := fIsFinite r.lo && fIsFinite r.hi && fLe r.lo r.hi

/-- Every field of a station frame ends within the frame (00_scope.md R6: large enough for its layout). -/
def stationLayoutFits (l : StationLayout) (bytes : Nat) : Bool :=
  decide (l.status + 1 ≤ bytes) && decide (l.msg + 2 ≤ bytes) && decide (l.count + 2 ≤ bytes) &&
    decide (l.signal + 2 ≤ bytes) && decide (l.quality + 8 ≤ bytes)

/-- Every field of a device frame ends within the frame (00_scope.md R6: large enough for its layout). -/
def deviceLayoutFits (l : DeviceLayout) (bytes : Nat) : Bool :=
  decide (l.status + 1 ≤ bytes) && decide (l.msg + 2 ≤ bytes) && decide (l.quality + 2 ≤ bytes) &&
    decide (l.geo + 16 ≤ bytes)

/-- The integer ranges of 00_scope.md R5. -/
def rangesValid (c : Config) : Bool :=
  rangeValid c.stationInc && rangeValid c.deviceInc && rangeValid c.devcountRange && rangeValid c.signalRange &&
    rangeValid c.deviceLqRange

/-- The frame lengths of 00_scope.md R6: even, at least 16 for the station frame, exactly 22 for the device frame, and
each large enough for its layout. -/
def framesValid (c : Config) : Bool :=
  decide (c.stationFrameBytes % 2 = 0) && decide (16 ≤ c.stationFrameBytes) && decide (c.deviceFrameBytes = 22) &&
    stationLayoutFits c.stationLayout c.stationFrameBytes && deviceLayoutFits c.deviceLayout c.deviceFrameBytes

/-- `GEO_STEP` is finite and not negative (00_scope.md R6). -/
def geoStepValid (c : Config) : Bool := fIsFinite c.geoStep && fLe 0 c.geoStep

/-- The constraints of 00_scope.md R6. A configuration that breaks one is refused (60_exceptions.md R211(c)). -/
def configValid (c : Config) : Bool :=
  rangesValid c && floatRangeValid c.stationLqRange && decide (1 ≤ c.stationDropPeriod) &&
    decide (1 ≤ c.deviceDropPeriod) && framesValid c && geoStepValid c

/-- A value as a place of the given width takes it: the value where it fits, as the rules say, and a free value of that
width where it does not (notes/assumptions/17.md). With the spec's widths every value fits. -/
def fitTo (place : Place) (width v : Nat) : Nat :=
  if v < 2 ^ width then v else (Config.freeFit place width v).toNat % 2 ^ width

/-- An integer draw lies in its range (10_state.md R32). -/
def inRange (r : IntRange) (n : Nat) : Bool := decide (r.lo ≤ n) && decide (n ≤ r.hi)

/-- A binary64 draw lies in its range; NaN lies in none (10_state.md R32). -/
def inFloatRange (r : FloatRange) (x : F64) : Bool := fLe r.lo x && fLe x r.hi

end Sys2Proof.Machine
end

