-- ==== Sys2Proof/Machine/State.lean ====
section
/-!
DEFINITION. The state of the machine, the reasons a step is refused, and the state after reset.

`cap`, `reg`, `msg`, `ticks`, `lat` and `lon` are all the state the spec gives the block (10_state.md R21 to R28, R34,
R35). The other fields are its configuration and its interfaces (R29, R31), which are plain data here because a step is a
function of the state alone (notes/assumptions/1.md, 2.md, 5.md and 9.md), and the index of the next free value.
-/

namespace Sys2Proof.Machine

/-- REG as (byte address, byte) cells: register i is bytes 2i (high) and 2i+1 (low); a byte that is not listed is 0
(notes/assumptions/12.md). `Memory.wf` in Ops.lean is its canonical form. -/
abbrev Memory := List Host.Cell

/-- Who issues a transaction (10_state.md R20): the tick context, or one of the read contexts. The number tells read
contexts apart for the scheduler only; no meaning reads it (R33). -/
inductive Context where
  | tick
  | read (k : Nat)
  deriving DecidableEq, Repr

/-- The draws supplied with a transaction (10_state.md R32, 30_encoding.md R72). Each opcode reads only the ones it takes. -/
structure Draws where
  /-- the increment, for either class -/
  inc : Nat
  /-- device-connected count -/
  cnt : Nat
  /-- signal strength -/
  sig : Nat
  /-- the station class's link quality, binary64 -/
  stationLq : F64
  /-- the device class's link quality, an integer -/
  deviceLq : Nat
  /-- the drop boolean -/
  b : Bool
  dlat : F64
  dlon : F64
  deriving DecidableEq, Repr

/-- All draws zero. -/
def Draws.zero : Draws := ⟨0, 0, 0, 0, 0, false, 0, 0⟩

/-- A request (10_state.md R31): its issuing context, the command word, the payload (SWRITE's), the draws. -/
structure Request where
  ctx : Context
  word : Cmd
  payload : List Half
  draws : Draws
  deriving DecidableEq, Repr

/-- The statuses of 60_exceptions.md R202. OUT_OF_RANGE is another name of ILLEGAL_DATA_ADDRESS: see `outOfRange`. -/
inductive Status where
  | ok
  | illegalCommand
  | illegalDataAddress
  deriving DecidableEq, Repr

/-- OUT_OF_RANGE, the other name of code 0x02 (60_exceptions.md R202). -/
abbrev Status.outOfRange : Status := .illegalDataAddress

/-- The data of a response (30_encoding.md R79). -/
inductive ResponseData where
  | none
  | bytes (bs : List Byte)
  | words (ws : List Half)
  | position (lat lon : F64)
  deriving DecidableEq, Repr

/-- A response (10_state.md R31), with the context it answers. -/
structure Response where
  ctx : Context
  status : Status
  data : ResponseData
  deriving DecidableEq, Repr

/-- The block has no traps and nothing in it stops it: every error is a status (60_exceptions.md R200), and no
transaction is stuck (70_reset_and_hazards.md R227). So there is no fault: the type is empty, and no step can answer one. -/
inductive Fault where
  deriving DecidableEq, Repr

/-- Why the model refuses: what stands here is not a run of the hardware (60_exceptions.md R211). Each is safe: it errs
toward unprovable. -/
inductive Refusal where
  /-- An instruction without a meaning. Raised by no arm of exec. Safe. -/
  | notModelled (mnemonic : String)
  /-- R211(c): the configuration breaks 00_scope.md R6. Raised by every transaction and by reset. Safe. -/
  | badConfiguration
  /-- R211(b): SWRITE, ENCS, ENCD, TICK or GADV from a read context (10_state.md R30). Safe. -/
  | mutatingFromReadContext
  /-- R211(a): a draw outside its set (10_state.md R32). Raised by ENCS, ENCD, TICK, GADV and by reset. Safe. -/
  | drawOutOfSet
  /-- R211(d): an SWRITE whose payload length is not `B`. Raised by SWRITE and by the step that reads it. Safe. -/
  | payloadLength
  deriving DecidableEq, Repr

structure State where
  /-- the parameters (00_scope.md R5); no step writes them -/
  cfg : Config
  /-- CAP (10_state.md R22) -/
  cap : Nat
  /-- REG (10_state.md R21) -/
  reg : Memory
  /-- MSG, a number below 2^MSG_W (10_state.md R24, 00_scope.md R5) -/
  msg : Nat
  /-- TICKS (10_state.md R25) -/
  ticks : Nat
  /-- LAT (10_state.md R28) -/
  lat : F64
  /-- LON (10_state.md R28) -/
  lon : F64
  /-- the model's own: the index of the next free value (notes/assumptions/10.md) -/
  freeIndex : Nat
  /-- who issues the transaction being performed (10_state.md R30) -/
  ctx : Context
  /-- the draws of the transaction being performed (10_state.md R32) -/
  draws : Draws
  /-- requests not served yet -/
  pending : List Request
  /-- whose request is served next, one entry a step; when none is left, the oldest request is (20_memory.md R56,
  60_exceptions.md R204) -/
  turns : List Context
  /-- the responses given, oldest first -/
  responses : List Response
  deriving DecidableEq, Repr

/-- The latitude drawn at reset: any finite binary64 value (70_reset_and_hazards.md R223). -/
def drawnLatitude : F64 := fFinite Config.freeLatitude

/-- The longitude drawn at reset: any finite binary64 value (70_reset_and_hazards.md R223). -/
def drawnLongitude : F64 := fFinite Config.freeLongitude

/-- The machine right after reset, with no SNAPSHOT and no GEO_INIT supplied (10_state.md R35, 70_reset_and_hazards.md
R220 to R223). `bootReset` in Reset.lean is reset for every configuration and every input. -/
def State.reset : State where
  cfg := Config.atReset
  cap := 65536
  reg := []
  msg := 0
  ticks := 0
  lat := drawnLatitude
  lon := drawnLongitude
  freeIndex := 0
  ctx := .tick
  draws := Draws.zero
  pending := []
  turns := []
  responses := []

end Sys2Proof.Machine
end

