-- ==== Sys2Proof/Machine/Ops.lean ====
section
/-!
DEFINITION. The operations the meanings share: the register file (20_memory.md), the position, responding
(30_encoding.md R79) and performing a transaction (60_exceptions.md R203, R211).

The block takes no exceptions and returns from none (60_exceptions.md R200): where another machine takes one, it
responds with a status, and `State.respond` is the one operation that does.
-/

namespace Sys2Proof.Machine

/-! ## The register file -/

/-- The byte at a cell address; a byte not listed is 0 (40_register_store.md R107). -/
def memGet : Memory → Nat → Byte
  | [], _ => 0
  | (k, v) :: m, a => if k = a then v else memGet m a

/-- Write one byte, keeping the canonical form: addresses strictly rising, no byte 0 listed. -/
def memSet : Memory → Nat → Byte → Memory
  | [], a, b => if b = 0 then [] else [(a, b)]
  | (k, v) :: m, a, b =>
    if a < k then (if b = 0 then (k, v) :: m else (a, b) :: (k, v) :: m)
    else if a = k then (if b = 0 then m else (a, b) :: m)
    else (k, v) :: memSet m a b

/-- The canonical form from address `lo` on. -/
def memWfFrom (lo : Nat) : Memory → Bool
  | [] => true
  | (k, v) :: m => decide (lo ≤ k) && v != 0 && memWfFrom (k + 1) m

/-- The canonical form: addresses strictly rising and no entry equal to what an unlisted address reads as. -/
def Memory.wf (m : Memory) : Bool := memWfFrom 0 m

/-- Every listed cell belongs to one of the first `cap` registers. -/
def memWithin (cap : Nat) (m : Memory) : Bool := m.all fun cell => decide (cell.1 < 2 * cap)

/-- The cell that holds register i's high byte. -/
def highCell (i : Nat) : Nat := 2 * i

/-- The cell that holds register i's low byte. -/
def lowCell (i : Nat) : Nat := 2 * i + 1

/-- `REG[i]` (00_scope.md R8). -/
def readReg (m : Memory) (i : Nat) : Half := ofBytes (memGet m (highCell i)) (memGet m (lowCell i))

/-- `REG[i] <- v` (00_scope.md R8). -/
def writeReg (m : Memory) (i : Nat) (v : Half) : Memory :=
  memSet (memSet m (highCell i) (highByte v)) (lowCell i) (lowByte v)

/-- `MemRead(a, n)` (00_scope.md R8). -/
def memRead (m : Memory) (a n : Nat) : List Half := (List.range n).map fun k => readReg m (a + k)

/-- `MemWrite(a, n, V)` with `n = len(V)` (00_scope.md R8). -/
def memWrite (m : Memory) (a : Nat) : List Half → Memory
  | [] => m
  | v :: vs => memWrite (writeReg m a v) (a + 1) vs

/-- The bound of every access: `n` registers from `a` lie within the capacity, on unbounded integers
(40_register_store.md R100, R101; 42_read_handler.md R151; 41_telemetry_encoder.md R129). -/
def fits (s : State) (a n : Nat) : Bool := decide (a + n ≤ s.cap)

/-! ## Updates of the state -/

/-- Append the transaction's response, for the context that issued it (10_state.md R31). -/
def State.respond (s : State) (status : Status) (data : ResponseData) : State :=
  { s with responses := s.responses ++ [⟨s.ctx, status, data⟩] }

/-- A 16-bit value as a register of REG_W bits takes it (10_state.md R21, 00_scope.md R5). -/
def registerValue (c : Config) (v : Half) : Half := BitVec.ofNat 16 (fitTo .register c.regW v.toNat)

/-- `MemWrite` on the state's register file. -/
def State.writeWords (s : State) (a : Nat) (vs : List Half) : State :=
  { s with reg := memWrite s.reg a (vs.map (registerValue s.cfg)) }

/-- `(MSG + inc) mod 2^MSG_W`, which is modulo 65536 with the spec's width (41_telemetry_encoder.md R123). -/
def addMsg (width msg inc : Nat) : Nat := (msg + inc) % 2 ^ width

/-- `TICKS <- TICKS + 1; MSG <- (MSG + inc) mod 2^MSG_W` (41_telemetry_encoder.md R121, R123). -/
def State.countEncode (s : State) (inc : Nat) : State :=
  { s with ticks := s.ticks + 1, msg := addMsg s.cfg.msgW s.msg inc }

/-- One random-walk step: `LAT <- LAT +f dlat; LON <- LON +f dlon` (43_geo_simulator.md R172). It uses up two free
values, one for each sum. -/
def State.advance (s : State) (dlat dlon : F64) : State :=
  { s with
    lat := fAdd (fNaN (Config.freeNaN s.freeIndex)) s.lat dlat
    lon := fAdd (fNaN (Config.freeNaN (s.freeIndex + 1))) s.lon dlon
    freeIndex := s.freeIndex + 2 }

/-- Take a request: it leaves the pending ones, and its context and draws stand at the interfaces. -/
def State.accept (s : State) (r : Request) (pending : List Request) (turns : List Context) : State :=
  { s with ctx := r.ctx, draws := r.draws, pending := pending, turns := turns }

/-! ## Performing a transaction -/

/-- What the model answers. -/
abbrev Result := Host.Outcome State Fault Refusal

/-- What a transaction does: the state it leaves and its response. -/
structure Answer where
  state : State
  status : Status
  data : ResponseData
  deriving DecidableEq, Repr

/-- The issuing context may issue a mutating opcode (10_state.md R30). -/
def fromTickContext (s : State) : Bool := decide (s.ctx = .tick)

/-- One transaction (60_exceptions.md R203): first what is refused (R211), then the opcode's own body, which gives the
new state and exactly one response (10_state.md R31). -/
def transact (mutating drawsOk : Bool) (body : State → Answer) (s : State) : Result :=
  if configValid s.cfg = false then .refused .badConfiguration
  else if mutating && !fromTickContext s then .refused .mutatingFromReadContext
  else if drawsOk = false then .refused .drawOutOfSet
  else .next ((body s).state.respond (body s).status (body s).data)

/-- An illegal command word: ILLEGAL_COMMAND, no data, no state change (30_encoding.md R75), from any context
(notes/assumptions/8.md). -/
def answerIllegal (s : State) : Result :=
  transact false true (fun s => ⟨s, .illegalCommand, .none⟩) s

end Sys2Proof.Machine
end

