-- ==== Sys2Proof/Machine/Operands.lean ====
section
/-!
DEFINITION. The operand forms: the unsigned fields A and B (30_encoding.md R74), the byte count of HREAD (42_read_handler.md
R150), and the draws each opcode takes (30_encoding.md R72).
-/

namespace Sys2Proof.Machine

/-- `zext(A)` or `zext(B)` as a mathematical integer (30_encoding.md R74). -/
def operand (v : Half) : Nat := v.toNat

/-- An address operand, in ADDR_W bits (30_encoding.md R74, 00_scope.md R5). -/
def addressOf (c : Config) (v : Half) : Nat := fitTo .address c.addrW (operand v)

/-- A count or length operand, in CNT_W bits (30_encoding.md R74, 00_scope.md R5). -/
def countOf (c : Config) (v : Half) : Nat := fitTo .count c.cntW (operand v)

/-- `ceil(c/2)`: the registers that `c` data bytes cover (42_read_handler.md R150). -/
def registersOfBytes (c : Nat) : Nat := (c + 1) / 2

/-- The geo deltas: `|d| ≤ GEO_STEP`, not NaN (43_geo_simulator.md R172). -/
def geoDrawsOk (s : State) : Bool := fAbsLe s.draws.dlat s.cfg.geoStep && fAbsLe s.draws.dlon s.cfg.geoStep

/-- The draws of ENCS (30_encoding.md R72). The drop boolean is any Bool. -/
def stationDrawsOk (s : State) : Bool :=
  inRange s.cfg.stationInc s.draws.inc && inRange s.cfg.devcountRange s.draws.cnt &&
    inRange s.cfg.signalRange s.draws.sig && inFloatRange s.cfg.stationLqRange s.draws.stationLq

/-- The draws of ENCD (30_encoding.md R72). -/
def deviceDrawsOk (s : State) : Bool :=
  inRange s.cfg.deviceInc s.draws.inc && inRange s.cfg.deviceLqRange s.draws.deviceLq && geoDrawsOk s

/-- The draws of TICK, by the configured class (30_encoding.md R72). -/
def tickDrawsOk (s : State) : Bool :=
  match s.cfg.deviceClass with
  | .station => stationDrawsOk s && geoDrawsOk s
  | .device => deviceDrawsOk s

/-- Draws every opcode of the class admits under a configuration R6 admits: the low end of each range, deltas of +0.0. -/
def leastDraws (c : Config) (station : Bool) : Draws where
  inc := if station then c.stationInc.lo else c.deviceInc.lo
  cnt := c.devcountRange.lo
  sig := c.signalRange.lo
  stationLq := c.stationLqRange.lo
  deviceLq := c.deviceLqRange.lo
  b := false
  dlat := 0
  dlon := 0

end Sys2Proof.Machine
end

