-- ==== Sys2Proof/Machine/ReadHandler.lean ====
section
/-!
DEFINITION. HREAD (42_read_handler.md).
-/

namespace Sys2Proof.Machine

/-- Data byte `i` of a read that starts at register `a`: the high byte of a register at even `i`, its low byte at odd `i`
(42_read_handler.md R154). -/
def hreadByte (m : Memory) (a i : Nat) : Byte :=
  if i % 2 = 0 then highByte (readReg m (a + i / 2)) else lowByte (readReg m (a + i / 2))

/-- The in-range buffer: `c mod 256`, then `c` data bytes (42_read_handler.md R152). -/
def hreadBuffer (m : Memory) (a c : Nat) : List Byte :=
  BitVec.ofNat 8 c :: (List.range c).map (hreadByte m a)

/-- The body of HREAD (42_read_handler.md R154). Out of range, the buffer is `c + 1` bytes of 0 (R153). -/
def hreadBody (a c : Nat) (s : State) : Answer :=
  if fits s a (registersOfBytes c) then ⟨s, .ok, .bytes (hreadBuffer s.reg a c)⟩
  else ⟨s, .illegalDataAddress, .bytes (List.replicate (c + 1) 0)⟩

/-- HREAD: `c` data bytes from register `a` (42_read_handler.md R154). From the tick context it acts the same
(notes/assumptions/7.md). -/
def execHread (a c : Half) (s : State) : Result :=
  transact false true (hreadBody (addressOf s.cfg a) (countOf s.cfg c)) s

end Sys2Proof.Machine
end

