-- ==== Sys2Proof/Machine/Flags.lean ====
section
/-!
DEFINITION. The block holds no flags (10_state.md R27). What comes nearest is computed here: the status codes
(60_exceptions.md R202) and the connection-status byte of a frame (41_telemetry_encoder.md R122).
-/

namespace Sys2Proof.Machine

/-- The 8-bit code of a status (60_exceptions.md R202). -/
def statusCode : Status → Byte
  | .ok => 0x00
  | .illegalCommand => 0x01
  | .illegalDataAddress => 0x02

/-- `st` (41_telemetry_encoder.md R122): 0 iff `TICKS mod N = 0` and the drop boolean is 0. -/
def connectionStatus (ticks period : Nat) (b : Bool) : Byte :=
  if ticks % period = 0 ∧ b = false then 0 else 1

end Sys2Proof.Machine
end

