-- ==== Sys2Proof/Machine/Geo.lean ====
section
/-!
DEFINITION. GPOS, GADV and GENC (43_geo_simulator.md).
-/

namespace Sys2Proof.Machine

/-- `GEOENC(lat, lon)`: latitude first, eight bytes each (43_geo_simulator.md R173). -/
def geoEncode (o : FloatOrder) (lat lon : F64) : List Byte := floatBytes o lat ++ floatBytes o lon

/-- GPOS: the position, bit-exact (43_geo_simulator.md R171). -/
def execGpos (s : State) : Result := transact false true (fun s => ⟨s, .ok, .position s.lat s.lon⟩) s

/-- GADV: one random-walk step, no clamping (43_geo_simulator.md R172). -/
def execGadv (s : State) : Result :=
  transact true (geoDrawsOk s) (fun s => ⟨s.advance s.draws.dlat s.draws.dlon, .ok, .none⟩) s

/-- GENC: the encoding of the position (43_geo_simulator.md R174). -/
def execGenc (s : State) : Result :=
  transact false true (fun s => ⟨s, .ok, .bytes (geoEncode s.cfg.floatOrder s.lat s.lon)⟩) s

end Sys2Proof.Machine
end

