-- ==== Sys2Proof/Machine/RegisterStore.lean ====
section
/-!
DEFINITION. SREAD and SWRITE (40_register_store.md).
-/

namespace Sys2Proof.Machine

/-- The body of SREAD (40_register_store.md R100). -/
def sreadBody (a c : Nat) (s : State) : Answer :=
  if fits s a c then ⟨s, .ok, .words (memRead s.reg a c)⟩ else ⟨s, .outOfRange, .words []⟩

/-- SREAD: `c` registers from `a` (40_register_store.md R100). Any context may issue it (10_state.md R30). -/
def execSread (a c : Half) (s : State) : Result :=
  transact false true (sreadBody (addressOf s.cfg a) (countOf s.cfg c)) s

/-- A write of whole registers, all or nothing (40_register_store.md R102): the state, and the status. -/
def storeWords (s : State) (a : Nat) (vs : List Half) : State × Status :=
  if fits s a vs.length then (s.writeWords a vs, .ok) else (s, .outOfRange)

/-- The body of SWRITE (40_register_store.md R101). -/
def swriteBody (a : Nat) (vs : List Half) (s : State) : Answer :=
  ⟨(storeWords s a vs).1, (storeWords s a vs).2, .none⟩

/-- SWRITE: `n` registers from `a` (40_register_store.md R101). A payload that is not `B` words long is refused
(60_exceptions.md R211(d)); where CNT_W holds `B`, which it always does at the spec's 16, `n` is all of the payload. -/
def execSwrite (a n : Half) (payload : List Half) (s : State) : Result :=
  if payload.length = operand n then
    transact true true (swriteBody (addressOf s.cfg a) (payload.take (countOf s.cfg n))) s
  else .refused .payloadLength

end Sys2Proof.Machine
end

