-- ==== Sys2Proof/Machine/Telemetry.lean ====
section
/-!
DEFINITION. ENCS, ENCD and TICK (41_telemetry_encoder.md).
-/

namespace Sys2Proof.Machine

/-- A station frame (41_telemetry_encoder.md R124, R127): zero bytes, then the fields in the order R127 writes them. -/
def stationFrame (c : Config) (st : Byte) (msg : Half) (d : Draws) : List Byte :=
  let f0 := List.replicate c.stationFrameBytes (0 : Byte)
  let f1 := putBytes f0 c.stationLayout.status [st]
  let f2 := putBytes f1 c.stationLayout.msg (be16 msg)
  let f3 := putBytes f2 c.stationLayout.count (be16 (BitVec.ofNat 16 d.cnt))
  let f4 := putBytes f3 c.stationLayout.signal (be16 (BitVec.ofNat 16 d.sig))
  putBytes f4 c.stationLayout.quality (floatBytes c.floatOrder d.stationLq)

/-- A device frame (41_telemetry_encoder.md R125, R128), with the position at the time of the call. -/
def deviceFrame (c : Config) (st : Byte) (msg : Half) (d : Draws) (lat lon : F64) : List Byte :=
  let f0 := List.replicate c.deviceFrameBytes (0 : Byte)
  let f1 := putBytes f0 c.deviceLayout.status [st]
  let f2 := putBytes f1 c.deviceLayout.msg (be16 msg)
  let f3 := putBytes f2 c.deviceLayout.quality (be16 (BitVec.ofNat 16 d.deviceLq))
  putBytes f3 c.deviceLayout.geo (geoEncode c.floatOrder lat lon)

/-- The message counter in its 16-bit frame field (41_telemetry_encoder.md R123, R124, R125). -/
def counterField (msg : Nat) : Half := BitVec.ofNat 16 (fitTo .counterField 16 msg)

/-- What an encode leaves: the state, and the frame words it gives (41_telemetry_encoder.md R126). -/
structure Encoded where
  state : State
  words : List Half
  deriving DecidableEq, Repr

/-- The body of ENCS (41_telemetry_encoder.md R127). The frame carries the counters after their increments (R121, R123). -/
def encodeStation (s : State) : Encoded :=
  let t := s.countEncode s.draws.inc
  let st := connectionStatus t.ticks s.cfg.stationDropPeriod s.draws.b
  ⟨t, pairWords (stationFrame s.cfg st (counterField t.msg) s.draws)⟩

/-- The body of ENCD (41_telemetry_encoder.md R128). The frame carries the position before the advance. -/
def encodeDevice (s : State) : Encoded :=
  let t := s.countEncode s.draws.inc
  let st := connectionStatus t.ticks s.cfg.deviceDropPeriod s.draws.b
  ⟨t.advance s.draws.dlat s.draws.dlon, pairWords (deviceFrame s.cfg st (counterField t.msg) s.draws t.lat t.lon)⟩

/-- The encode of one TICK, with its one advance (41_telemetry_encoder.md R129, D18). -/
def encodeTick (s : State) : Encoded :=
  match s.cfg.deviceClass with
  | .station => ⟨(encodeStation s).state.advance s.draws.dlat s.draws.dlon, (encodeStation s).words⟩
  | .device => encodeDevice s

/-- The body of TICK: encode, then write at FRAME_BASE, all or nothing; a write that does not fit keeps the encode's own
effects (41_telemetry_encoder.md R129, R131). -/
def tickBody (s : State) : Answer :=
  let e := encodeTick s
  let stored := storeWords e.state s.cfg.frameBase e.words
  ⟨stored.1, stored.2, .words e.words⟩

/-- ENCS (41_telemetry_encoder.md R127). -/
def execEncs (s : State) : Result :=
  transact true (stationDrawsOk s) (fun s => ⟨(encodeStation s).state, .ok, .words (encodeStation s).words⟩) s

/-- ENCD (41_telemetry_encoder.md R128). -/
def execEncd (s : State) : Result :=
  transact true (deviceDrawsOk s) (fun s => ⟨(encodeDevice s).state, .ok, .words (encodeDevice s).words⟩) s

/-- TICK (41_telemetry_encoder.md R129). -/
def execTick (s : State) : Result := transact true (tickDrawsOk s) tickBody s

end Sys2Proof.Machine
end

