-- ==== Sys2Proof/Machine/Dispatch.lean ====
section
/-!
DEFINITION. The meaning of every instruction, one arm each.
-/

namespace Sys2Proof.Machine

def exec (i : Instr) (s : State) : Host.Outcome State Fault Refusal :=
  match i with
  | .hread a c => Sys2Proof.Machine.execHread a c s
  | .sread a c => Sys2Proof.Machine.execSread a c s
  | .swrite a n payload => Sys2Proof.Machine.execSwrite a n payload s
  | .encs => Sys2Proof.Machine.execEncs s
  | .encd => Sys2Proof.Machine.execEncd s
  | .tick => Sys2Proof.Machine.execTick s
  | .gpos => Sys2Proof.Machine.execGpos s
  | .gadv => Sys2Proof.Machine.execGadv s
  | .genc => Sys2Proof.Machine.execGenc s

end Sys2Proof.Machine
end

