-- ==== Sys2Proof/Machine/Fetch.lean ====
section
/-!
DEFINITION. Which request is served next, and how one is placed.

The block executes no stored program (10_state.md R26): the transactions its contexts issue are its program, and every
order of contexts is admitted, as long as each context's own requests keep their order (20_memory.md R56, 60_exceptions.md
R204).
-/

namespace Sys2Proof.Machine

/-- The oldest pending request of a context, and the others in their order. -/
def takeOf (c : Context) : List Request → Option (Request × List Request)
  | [] => none
  | r :: rs =>
    if r.ctx = c then some (r, rs)
    else match takeOf c rs with
      | some (q, others) => some (q, r :: others)
      | none => none

/-- What a step finds at the request interface. -/
inductive Fetched where
  /-- no request to serve; the state holds (60_exceptions.md R210) -/
  | idle (s : State)
  /-- a request, and the state that has taken it -/
  | request (r : Request) (s : State)
  deriving DecidableEq, Repr

/-- The next request: the oldest one of the context whose turn it is, or the oldest of all when no turn is left. A turn
of a context with nothing pending passes. -/
def fetch (s : State) : Fetched :=
  match s.turns with
  | [] =>
    match s.pending with
    | [] => .idle s
    | r :: rs => .request r (s.accept r rs [])
  | c :: turns =>
    match takeOf c s.pending with
    | none => .idle { s with turns := turns }
    | some (r, rs) => .request r (s.accept r rs turns)

/-- The context that issues an opcode in 10_state.md R30: a read context for HREAD, the tick context for the others
(which all admit it). -/
def issuerOf (w : Cmd) : Context := if cmdOp w = 1 then .read 0 else .tick

/-- Whether the draws of a command word are those of the station class (30_encoding.md R72). -/
def takesStationDraws (c : Config) (w : Cmd) : Bool :=
  decide (cmdOp w = 4) || (decide (cmdOp w = 6) && decide (c.deviceClass = .station))

/-- The request of a command word and a payload, from a context that may issue it, with draws of its sets
(notes/assumptions/18.md). -/
def tableRequest (c : Config) (w : Cmd) (payload : List Half) : Request where
  ctx := issuerOf w
  word := w
  payload := payload
  draws := leastDraws c (takesStationDraws c w)

/-- Place a request so that it is served next. -/
def State.placeRequest (s : State) (r : Request) : State :=
  { s with pending := r :: s.pending, turns := r.ctx :: s.turns }

end Sys2Proof.Machine
end

