-- ==== Sys2Proof/Machine/Step.lean ====
section
/-!
DEFINITION. One step: one transaction, atomic as a whole (20_memory.md R55).
-/

namespace Sys2Proof.Machine

/-- Perform a taken request: decode first, then the opcode (60_exceptions.md R203). -/
def serve (r : Request) (s : State) : Host.Outcome State Fault Refusal :=
  match decode r.word r.payload with
  | .instr i => exec i s
  | .illegal _ => answerIllegal s
  | .payloadMismatch => .refused .payloadLength

/-- One step of the machine: the next request is taken and performed; with none to serve, nothing changes but the turn. -/
def step (s : State) : Host.Outcome State Fault Refusal :=
  match fetch s with
  | .idle s' => .next s'
  | .request r s' => serve r s'

/-- The state with the opcode table's word as the request the next step serves. A number that is no command word places
nothing. -/
def State.withFetchWord (s : State) (nbits w : Nat) : State :=
  match tableWord nbits w with
  | some (word, payload) => s.placeRequest (tableRequest s.cfg word payload)
  | none => s

end Sys2Proof.Machine
end

