-- ==== Sys2Proof/Machine/Assembler.lean ====
section
/-!
DEFINITION. The textual form of a transaction and the pseudo-instructions (30_encoding.md R77, R78, R80). No step reads
this file: it turns a line of text into the requests of 10_state.md R31. (notes/assumptions/19.md)
-/

namespace Sys2Proof.Machine

/-! ## Pseudo-instructions (R78) and the assembled form (R80) -/

/-- The request of an instruction: its assembled words, from a context, with its draws (30_encoding.md R80). -/
def requestOf (ctx : Context) (i : Instr) (d : Draws) : Request := ⟨ctx, encodeWord i, encodePayload i, d⟩

/-- `RDREGS a, n` is `HREAD a, 2n`, for `n ≤ 32767` (30_encoding.md R78). -/
def rdregs (a : Half) (n : Nat) : Option Instr :=
  if n ≤ 32767 then some (.hread a (BitVec.ofNat 16 (2 * n))) else none

/-- `WRREG a, v` is `SWRITE a, [v]` (30_encoding.md R78). -/
def wrreg (a v : Half) : Instr := .swrite a 1 [v]

/-- `TICKN k` is `k` TICKs from the tick context, the i-th with draws i (30_encoding.md R78). -/
def tickn (ds : List Draws) : List Request := ds.map (requestOf .tick .tick)

/-! ## Lexemes -/

inductive Lexeme where
  /-- a run of letters, digits, points and signs -/
  | text (cs : List Char)
  | punct (c : Char)
  deriving DecidableEq, Repr

/-- The braces, by number. -/
def openBrace : Char := Char.ofNat 123

def closeBrace : Char := Char.ofNat 125

def isPunct (c : Char) : Bool := [',', '[', ']', '=', ';', ':', openBrace, closeBrace].contains c

/-- End a run of text; `cur` is the run so far, last character first. -/
def endText (cur : List Char) (rest : List Lexeme) : List Lexeme :=
  match cur with
  | [] => rest
  | _ :: _ => .text cur.reverse :: rest

/-- The lexemes of a line. -/
def lexLine (cur : List Char) : List Char → List Lexeme
  | [] => endText cur []
  | c :: cs =>
    if c = ' ' ∨ c = '\t' then endText cur (lexLine [] cs)
    else if isPunct c then endText cur (.punct c :: lexLine [] cs)
    else lexLine (c :: cur) cs

/-! ## Numbers -/

/-- The value of a digit in base 10 or 16. -/
def digitValue (base : Nat) (c : Char) : Option Nat :=
  let n := c.toNat
  let v := if 48 ≤ n ∧ n ≤ 57 then n - 48 else if 65 ≤ n ∧ n ≤ 70 then n - 55 else if 97 ≤ n ∧ n ≤ 102 then n - 87 else 16
  if v < base then some v else none

/-- Digits after a value so far. -/
def digitsFrom (base acc : Nat) : List Char → Option Nat
  | [] => some acc
  | c :: cs =>
    match digitValue base c with
    | some d => digitsFrom base (base * acc + d) cs
    | none => none

/-- One digit or more. -/
def digits (base : Nat) (cs : List Char) : Option Nat := if cs = [] then none else digitsFrom base 0 cs

/-- A decimal number, or a hexadecimal one after `0x` (30_encoding.md R77). -/
def numberOf : List Char → Option Nat
  | '0' :: 'x' :: cs => digits 16 cs
  | cs => digits 10 cs

/-- A number that fits in 16 bits. -/
def halfOf (cs : List Char) : Option Half :=
  match numberOf cs with
  | some n => if n ≤ 65535 then some (BitVec.ofNat 16 n) else none
  | none => none

/-- The characters before the first decimal point, and those after it if there is one. -/
def splitPoint : List Char → List Char × Option (List Char)
  | [] => ([], none)
  | c :: cs => if c = '.' then ([], some cs) else (c :: (splitPoint cs).1, (splitPoint cs).2)

/-- The binary64 value nearest to a number over a power of ten. -/
def nearestFloat (neg : Bool) (num tens : Nat) : F64 :=
  fOfMagnitude neg (roundMagnitude (num * 2 ^ 1074) (10 ^ tens))

/-- An unsigned decimal literal, digits with an optional fraction, as the nearest binary64 value (30_encoding.md R77). -/
def decimalOf (neg : Bool) (cs : List Char) : Option F64 :=
  match splitPoint cs with
  | (whole, none) => (digits 10 whole).map fun n => nearestFloat neg n 0
  | (whole, some frac) =>
    if whole = [] ∨ frac = [] then none
    else (digits 10 (whole ++ frac)).map fun n => nearestFloat neg n frac.length

/-- A decimal literal with an optional minus sign. -/
def floatOf : List Char → Option F64
  | '-' :: cs => decimalOf true cs
  | cs => decimalOf false cs

/-- A drop boolean, 0 or 1. -/
def boolOf (cs : List Char) : Option Bool :=
  match numberOf cs with
  | some 0 => some false
  | some 1 => some true
  | _ => none

/-! ## Draws (30_encoding.md R72, R77) -/

/-- `name=value`. `lq` is binary64 for the station class and an integer for the device class. -/
def setDraw (station : Bool) (d : Draws) (name value : List Char) : Option Draws :=
  if name = "inc".toList then (numberOf value).map fun n => { d with inc := n }
  else if name = "cnt".toList then (numberOf value).map fun n => { d with cnt := n }
  else if name = "sig".toList then (numberOf value).map fun n => { d with sig := n }
  else if name = "lq".toList then
    if station then (floatOf value).map fun x => { d with stationLq := x }
    else (numberOf value).map fun n => { d with deviceLq := n }
  else if name = "b".toList then (boolOf value).map fun b => { d with b := b }
  else if name = "dlat".toList then (floatOf value).map fun x => { d with dlat := x }
  else if name = "dlon".toList then (floatOf value).map fun x => { d with dlon := x }
  else none

/-- One group of draws up to its `;` or closing brace, which stays in front. -/
def drawGroup (station : Bool) (d : Draws) : List Lexeme → Option (Draws × List Lexeme)
  | .text name :: .punct e :: .text value :: .punct p :: rest =>
    if e = '=' then
      match setDraw station d name value with
      | some d' => if p = ',' then drawGroup station d' rest else some (d', .punct p :: rest)
      | none => none
    else none
  | rest => some (d, rest)

/-- The optional draws at the end of a line; `base` gives the ones that are not named. -/
def lineDraws (station : Bool) (base : Draws) : List Lexeme → Option Draws
  | [] => some base
  | .punct p :: rest =>
    if p = openBrace then
      match drawGroup station base rest with
      | some (d, [.punct q]) => if q = closeBrace then some d else none
      | _ => none
    else none
  | .text _ :: _ => none

/-- The `k` groups of TICKN, separated by `;`, up to the closing brace. -/
def tickGroups (station : Bool) (base : Draws) : Nat → List Lexeme → Option (List Draws)
  | 0, _ => none
  | k + 1, ls =>
    match drawGroup station base ls with
    | some (d, .punct p :: rest) =>
      if p = ';' then (tickGroups station base k rest).map (d :: ·)
      else if p = closeBrace ∧ k = 0 ∧ rest = [] then some [d]
      else none
    | _ => none

/-! ## Lines (30_encoding.md R77) -/

/-- The payload list of SWRITE after its opening bracket, and what follows the closing one. -/
def payloadList : List Lexeme → Option (List Half × List Lexeme)
  | .punct p :: rest => if p = ']' then some ([], rest) else none
  | .text v :: .punct p :: rest =>
    match halfOf v with
    | some h =>
      if p = ']' then some ([h], rest)
      else if p = ',' then
        match rest with
        | .text _ :: _ => (payloadList rest).map fun q => (h :: q.1, q.2)
        | _ => none
      else none
    | none => none
  | _ => none

/-- Two operands and what follows them. -/
def twoOperands : List Lexeme → Option (Half × Nat × List Lexeme)
  | .text a :: .punct p :: .text v :: rest =>
    match halfOf a, numberOf v with
    | some h, some n => if p = ',' then some (h, n, rest) else none
    | _, _ => none
  | _ => none

/-- The mnemonics written bare. -/
def bareInstr (name : List Char) : Option Instr :=
  if name = "ENCS".toList then some .encs
  else if name = "ENCD".toList then some .encd
  else if name = "TICK".toList then some .tick
  else if name = "GPOS".toList then some .gpos
  else if name = "GADV".toList then some .gadv
  else if name = "GENC".toList then some .genc
  else none

/-- The mnemonics with two numbers. -/
def pairInstr (name : List Char) (a : Half) (n : Nat) : Option Instr :=
  if name = "RDREGS".toList then rdregs a n
  else if n ≤ 65535 then
    if name = "HREAD".toList then some (.hread a (BitVec.ofNat 16 n))
    else if name = "SREAD".toList then some (.sread a (BitVec.ofNat 16 n))
    else if name = "WRREG".toList then some (wrreg a (BitVec.ofNat 16 n))
    else none
  else none

/-- One instruction or expanded pseudo-instruction, and the lexemes after its operands. -/
def lineInstr (name : List Char) (rest : List Lexeme) : Option (Instr × List Lexeme) :=
  if name = "SWRITE".toList then
    match rest with
    | .text a :: .punct p :: .punct q :: more =>
      match halfOf a, payloadList more with
      | some h, some (vs, after) =>
        if p = ',' ∧ q = '[' ∧ vs.length ≤ 65535 then some (.swrite h (BitVec.ofNat 16 vs.length) vs, after) else none
      | _, _ => none
    | _ => none
  else match bareInstr name with
    | some i => some (i, rest)
    | none =>
      match twoOperands rest with
      | some (a, n, after) => (pairInstr name a n).map fun i => (i, after)
      | none => none

/-- A context prefix, `T:` or `RC<k>:`; without one the transaction is the tick context's. -/
def linePrefix : List Lexeme → Option (Context × List Lexeme)
  | .text ['T'] :: .punct ':' :: rest => some (.tick, rest)
  | .text ('R' :: 'C' :: k) :: .punct ':' :: rest => (digits 10 k).map fun n => (.read n, rest)
  | ls => some (.tick, ls)

/-- The requests of TICKN after its name. -/
def ticknLine (c : Config) (base : Draws) : List Lexeme → Option (List Request)
  | .text k :: .punct p :: rest =>
    match numberOf k with
    | some n =>
      if p = openBrace then (tickGroups (decide (c.deviceClass = .station)) base n rest).map tickn else none
    | none => none
  | _ => none

/-- The requests of one line of text (30_encoding.md R77, R78): `c` says which class a TICK's draws are of, `base` gives
the draws the line does not name. None where the line is no transaction. -/
def assembleLine (c : Config) (base : Draws) (line : List Char) : Option (List Request) :=
  match linePrefix (lexLine [] line) with
  | some (ctx, .text name :: rest) =>
    if name = "TICKN".toList then (if ctx = .tick then ticknLine c base rest else none)
    else match lineInstr name rest with
      | some (i, after) =>
        (lineDraws (takesStationDraws c (encodeWord i)) base after).map fun d => [requestOf ctx i d]
      | none => none
  | _ => none

end Sys2Proof.Machine
end

