-- ==== Sys2Proof/Machine/Snapshot.lean ====
section
/-!
DEFINITION. `decodeSnapshot` of 40_register_store.md R106: a JSON array of unsigned 16-bit decimal integers.

Every text that is not such an array is an InvalidSnapshot, whether it is JSON or not, so the reader below recognises
exactly the accepted texts: optional white space, `[`, number tokens `0|[1-9][0-9]*` separated by `,`, `]`, with JSON
white space allowed around every token. It reads one byte at a time. (notes/assumptions/15.md)
-/

namespace Sys2Proof.Machine

/-- Where the reader stands in the text. -/
inductive SnapPlace where
  /-- before the opening bracket -/
  | start
  /-- after the opening bracket, before any element -/
  | opened
  /-- inside a number whose first digit is not 0; the value so far -/
  | number (value : Nat)
  /-- after the number 0, which no digit may follow -/
  | zero
  /-- after a whole element -/
  | element
  /-- after a comma -/
  | comma
  /-- after the closing bracket -/
  | closed
  deriving DecidableEq, Repr

/-- JSON white space: space, tab, line feed, carriage return. -/
def jsonSpace (b : Byte) : Bool := b == 0x20 || b == 0x09 || b == 0x0A || b == 0x0D

/-- The value of a decimal digit, if the byte is one. -/
def jsonDigit (b : Byte) : Option Nat :=
  if 0x30 ≤ b.toNat ∧ b.toNat ≤ 0x39 then some (b.toNat - 0x30) else none

/-- One byte where an element may begin. -/
def snapElement (stay : SnapPlace) (b : Byte) : Option SnapPlace :=
  if jsonSpace b then some stay
  else match jsonDigit b with
    | some 0 => some .zero
    | some d => some (.number d)
    | none => none

/-- What the byte after an element does: `,` goes on, `]` ends the array, white space stays. -/
def snapAfter (b : Byte) : Option SnapPlace :=
  if jsonSpace b then some .element
  else if b = 0x2C then some .comma
  else if b = 0x5D then some .closed
  else none

/-- The reader's place and the elements read so far, last first. -/
structure SnapReader where
  place : SnapPlace
  elements : List Nat
  deriving DecidableEq, Repr

/-- An element has ended before this byte. -/
def snapEnd (r : SnapReader) (value : Nat) (b : Byte) : Option SnapReader :=
  (snapAfter b).map fun p => ⟨p, value :: r.elements⟩

/-- One byte of the text; none where no accepted text goes on so. -/
def snapStep (r : SnapReader) (b : Byte) : Option SnapReader :=
  match r.place with
  | .start =>
    if jsonSpace b then some r else if b = 0x5B then some { r with place := .opened } else none
  | .opened =>
    if b = 0x5D then some { r with place := .closed }
    else (snapElement .opened b).map fun p => { r with place := p }
  | .number value =>
    match jsonDigit b with
    | some d => some { r with place := .number (10 * value + d) }
    | none => snapEnd r value b
  | .zero => snapEnd r 0 b
  | .element => (snapAfter b).map fun p => { r with place := p }
  | .comma => (snapElement .comma b).map fun p => { r with place := p }
  | .closed => if jsonSpace b then some r else none

/-- The whole text. -/
def snapRead : SnapReader → List Byte → Option SnapReader
  | r, [] => some r
  | r, b :: bs =>
    match snapStep r b with
    | some r' => snapRead r' bs
    | none => none

/-- Every value must be at most 65535 (40_register_store.md R106). -/
def snapValues : List Nat → Option (List Half)
  | [] => some []
  | v :: vs => if v ≤ 65535 then (snapValues vs).map (BitVec.ofNat 16 v :: ·) else none

/-- `decodeSnapshot` on the bytes of a readable file; none is InvalidSnapshot (40_register_store.md R106). -/
def decodeSnapshot (bytes : List Byte) : Option (List Half) :=
  match snapRead ⟨.start, []⟩ bytes with
  | some r => if r.place = .closed then snapValues r.elements.reverse else none
  | none => none

end Sys2Proof.Machine
end

