-- ==== Sys2Proof/Machine/Reset.lean ====
section
/-!
DEFINITION. Reset, for every configuration and every input (70_reset_and_hazards.md R220 to R224).
-/

namespace Sys2Proof.Machine

/-- The SNAPSHOT input (70_reset_and_hazards.md R221). -/
inductive SnapshotInput where
  /-- no path supplied -/
  | notSupplied
  /-- a path to a missing or unreadable file -/
  | unreadable
  | file (bytes : List Byte)
  deriving DecidableEq, Repr

/-- `snap_status` (10_state.md R36): a result of reset, kept nowhere. -/
inductive SnapStatus where
  | snapNone
  | snapOk
  | snapInvalid
  deriving DecidableEq, Repr

/-- A latitude and a longitude. -/
structure Position where
  lat : F64
  lon : F64
  deriving DecidableEq, Repr

/-- What the environment supplies at reset (10_state.md R31, 70_reset_and_hazards.md R224). -/
structure ResetInputs where
  snapshot : SnapshotInput
  /-- `GEO_INIT`; none is absent -/
  geoInit : Option Position
  /-- the draw taken when `GEO_INIT` is absent (70_reset_and_hazards.md R223) -/
  geoDraw : Position
  deriving DecidableEq, Repr

/-- The register file that reset makes, and what it reports. -/
structure Store where
  cap : Nat
  reg : Memory
  snap : SnapStatus
  deriving DecidableEq, Repr

/-- The fallback: full-range, all zero (40_register_store.md R107). -/
def emptyStore (c : Config) (snap : SnapStatus) : Store := ⟨c.defaultCap, [], snap⟩

/-- A decoded snapshot: one register for each element (40_register_store.md R108). -/
def snapshotStore (c : Config) (values : List Half) : Store :=
  ⟨values.length, memWrite [] 0 (values.map (registerValue c)), .snapOk⟩

/-- Register-file reset (70_reset_and_hazards.md R221). -/
def resetStore (c : Config) : SnapshotInput → Store
  | .notSupplied => emptyStore c .snapNone
  | .unreadable => emptyStore c .snapInvalid
  | .file bytes =>
    match decodeSnapshot bytes with
    | some values => snapshotStore c values
    | none => emptyStore c .snapInvalid

/-- Geo reset: the reference point, else the draw (70_reset_and_hazards.md R223). -/
def resetPosition (inp : ResetInputs) : Position := inp.geoInit.getD inp.geoDraw

/-- The draw of the initial position is taken only without a reference point, and must be finite (10_state.md R32). -/
def resetDrawOk (inp : ResetInputs) : Bool :=
  inp.geoInit.isSome || (fIsFinite inp.geoDraw.lat && fIsFinite inp.geoDraw.lon)

/-- The state reset leaves (10_state.md R35). -/
def resetState (c : Config) (inp : ResetInputs) : State where
  cfg := c
  cap := (resetStore c inp.snapshot).cap
  reg := (resetStore c inp.snapshot).reg
  msg := 0
  ticks := 0
  lat := (resetPosition inp).lat
  lon := (resetPosition inp).lon
  freeIndex := 0
  ctx := .tick
  draws := Draws.zero
  pending := []
  turns := []
  responses := []

/-- What reset leaves and reports. -/
structure Booted where
  state : State
  snapStatus : SnapStatus
  deriving DecidableEq, Repr

/-- Reset (70_reset_and_hazards.md R220): one step, refused for a configuration that breaks 00_scope.md R6 or an initial
draw outside its set (60_exceptions.md R211). -/
def bootReset (c : Config) (inp : ResetInputs) : Host.Outcome Booted Fault Refusal :=
  if configValid c = false then .refused .badConfiguration
  else if resetDrawOk inp = false then .refused .drawOutOfSet
  else .next ⟨resetState c inp, (resetStore c inp.snapshot).snap⟩

end Sys2Proof.Machine
end

