-- ==== Sys2Proof/Safety.lean ====
section
/-!
DEFINITION. The terms the claims use: the invariant of the machine, which words are illegal, which draws are admitted,
what is seen at the interfaces, and which texts are snapshots. Nothing the machine runs depends on this file.
-/

namespace Sys2Proof.Machine

/-! ## States -/

/-- The invariant: the register file is in its canonical form and lists nothing beyond the capacity, and the registers
and the message counter hold values of their widths (10_state.md R21, R24). -/
def Invariant (s : State) : Prop :=
  Memory.wf s.reg = true ∧ memWithin s.cap s.reg = true ∧ (∀ i, (readReg s.reg i).toNat < 2 ^ s.cfg.regW) ∧
    s.msg < 2 ^ s.cfg.msgW

/-- The spec's default layouts, byte order and frame lengths (41_telemetry_encoder.md R124, R125; 20_memory.md R54;
00_scope.md R5). -/
def DefaultFrames (c : Config) : Prop :=
  c.stationLayout = {} ∧ c.deviceLayout = {} ∧ c.floatOrder = .big ∧ c.stationFrameBytes = 40 ∧ c.deviceFrameBytes = 22

/-- The state the block itself keeps (10_state.md R35) is the same. -/
def SameBlock (s t : State) : Prop :=
  t.cap = s.cap ∧ t.reg = s.reg ∧ t.msg = s.msg ∧ t.ticks = s.ticks ∧ t.lat = s.lat ∧ t.lon = s.lon

/-- The configuration and the interfaces are as before, but for one more response, which is `r`. -/
def AnswersOnly (s t : State) (r : Response) : Prop :=
  t.cfg = s.cfg ∧ t.ctx = s.ctx ∧ t.draws = s.draws ∧ t.pending = s.pending ∧ t.turns = s.turns ∧
    t.responses = s.responses ++ [r]

/-! ## Configurations (00_scope.md R6), as inequalities of numbers -/

/-- A non-empty integer range within 0..65535. -/
def GoodRange (r : IntRange) : Prop := r.lo ≤ r.hi ∧ r.hi ≤ 65535

/-- Each field of the two frames ends within its frame (notes/assumptions/13.md). -/
def LayoutsFit (c : Config) : Prop :=
  c.stationLayout.status + 1 ≤ c.stationFrameBytes ∧ c.stationLayout.msg + 2 ≤ c.stationFrameBytes ∧
    c.stationLayout.count + 2 ≤ c.stationFrameBytes ∧ c.stationLayout.signal + 2 ≤ c.stationFrameBytes ∧
    c.stationLayout.quality + 8 ≤ c.stationFrameBytes ∧
    c.deviceLayout.status + 1 ≤ c.deviceFrameBytes ∧ c.deviceLayout.msg + 2 ≤ c.deviceFrameBytes ∧
    c.deviceLayout.quality + 2 ≤ c.deviceFrameBytes ∧ c.deviceLayout.geo + 16 ≤ c.deviceFrameBytes

/-! ## Instructions and words -/

/-- The mutating opcodes (10_state.md R30): those a read context must not issue. -/
def mutates : Instr → Bool
  | .hread _ _ => false
  | .sread _ _ => false
  | .swrite _ _ _ => true
  | .encs => true
  | .encd => true
  | .tick => true
  | .gpos => false
  | .gadv => true
  | .genc => false

/-- The opcodes that encode a frame (41_telemetry_encoder.md R120, R129). -/
def encodes : Instr → Bool
  | .hread _ _ => false
  | .sread _ _ => false
  | .swrite _ _ _ => false
  | .encs => true
  | .encd => true
  | .tick => true
  | .gpos => false
  | .gadv => false
  | .genc => false

/-- The opcodes that move the position (10_state.md R28, R30). -/
def moves : Instr → Bool
  | .hread _ _ => false
  | .sread _ _ => false
  | .swrite _ _ _ => false
  | .encs => false
  | .encd => true
  | .tick => true
  | .gpos => false
  | .gadv => true
  | .genc => false

/-- The opcodes that write registers (10_state.md R30). -/
def stores : Instr → Bool
  | .hread _ _ => false
  | .sread _ _ => false
  | .swrite _ _ _ => true
  | .encs => false
  | .encd => false
  | .tick => true
  | .gpos => false
  | .gadv => false
  | .genc => false

/-- The illegal command words of 30_encoding.md R75, as numbers: `op` reserved, or an opcode that uses neither field with
a bit of `A` or `B` set. -/
def IllegalWord (w : Cmd) : Prop :=
  w.toNat / 2 ^ 32 = 0 ∨ 10 ≤ w.toNat / 2 ^ 32 ∨ (4 ≤ w.toNat / 2 ^ 32 ∧ w.toNat % 2 ^ 32 ≠ 0)

/-! ## Widths (00_scope.md R5, notes/assumptions/17.md) -/

/-- An address and a count that fit in their fields. Under the spec's widths every operand does. -/
def FieldsFit (c : Config) (a n : Half) : Prop := a.toNat < 2 ^ c.addrW ∧ n.toNat < 2 ^ c.cntW

/-- Words that fit in registers. Under the spec's widths every word does. -/
def WordsFit (c : Config) (ws : List Half) : Prop := ∀ w ∈ ws, w.toNat < 2 ^ c.regW

/-! ## Draws (10_state.md R32) -/

def StationDraws (c : Config) (d : Draws) : Prop :=
  c.stationInc.lo ≤ d.inc ∧ d.inc ≤ c.stationInc.hi ∧ c.devcountRange.lo ≤ d.cnt ∧ d.cnt ≤ c.devcountRange.hi ∧
    c.signalRange.lo ≤ d.sig ∧ d.sig ≤ c.signalRange.hi ∧
    fLe c.stationLqRange.lo d.stationLq = true ∧ fLe d.stationLq c.stationLqRange.hi = true

def GeoDraws (c : Config) (d : Draws) : Prop := fAbsLe d.dlat c.geoStep = true ∧ fAbsLe d.dlon c.geoStep = true

def DeviceDraws (c : Config) (d : Draws) : Prop :=
  c.deviceInc.lo ≤ d.inc ∧ d.inc ≤ c.deviceInc.hi ∧ c.deviceLqRange.lo ≤ d.deviceLq ∧
    d.deviceLq ≤ c.deviceLqRange.hi ∧ GeoDraws c d

/-- The range of the message counter's increment, by the class that encodes (41_telemetry_encoder.md R123, R129). -/
def incRange (c : Config) (i : Instr) : IntRange :=
  if i = .encs ∨ (i = .tick ∧ c.deviceClass = .station) then c.stationInc else c.deviceInc

/-- The draws the instruction takes lie in their sets (30_encoding.md R72). -/
def DrawsAdmitted (c : Config) (d : Draws) : Instr → Prop
  | .encs => StationDraws c d
  | .encd => DeviceDraws c d
  | .tick =>
    match c.deviceClass with
    | .station => StationDraws c d ∧ GeoDraws c d
    | .device => DeviceDraws c d
  | .gadv => GeoDraws c d
  | .hread _ _ => True
  | .sread _ _ => True
  | .swrite _ _ _ => True
  | .gpos => True
  | .genc => True

/-- The model admits the transaction as a run of the hardware (60_exceptions.md R211). -/
def Admitted (i : Instr) (s : State) : Prop :=
  configValid s.cfg = true ∧ (mutates i = true → s.ctx = .tick) ∧ DrawsAdmitted s.cfg s.draws i ∧ i.wellFormed = true

/-! ## Frame words (41_telemetry_encoder.md R124, R125), written as numbers -/

/-- Word 0: `st·256`. -/
def statusWord (ticks period : Nat) (b : Bool) : Half := if ticks % period = 0 ∧ b = false then 0x0000 else 0x0100

/-- The four words of a binary64 bit pattern, most significant first. -/
def floatWords (x : F64) : List Half := [x.extractLsb' 48 16, x.extractLsb' 32 16, x.extractLsb' 16 16, x.extractLsb' 0 16]

/-- The message counter after an encode: `(MSG + inc) mod 2^MSG_W`, modulo 65536 with the spec's width
(41_telemetry_encoder.md R123, 00_scope.md R5). -/
def nextMsg (s : State) : Nat := (s.msg + s.draws.inc) % 2 ^ s.cfg.msgW

/-- The words of a station frame (41_telemetry_encoder.md R124). -/
def stationWords (s : State) : List Half :=
  [statusWord (s.ticks + 1) s.cfg.stationDropPeriod s.draws.b, BitVec.ofNat 16 (nextMsg s), BitVec.ofNat 16 s.draws.cnt,
    BitVec.ofNat 16 s.draws.sig] ++ floatWords s.draws.stationLq ++ List.replicate 12 0

/-- The words of a device frame, with the position before the advance (41_telemetry_encoder.md R125). -/
def deviceWords (s : State) : List Half :=
  [statusWord (s.ticks + 1) s.cfg.deviceDropPeriod s.draws.b, BitVec.ofNat 16 (nextMsg s), BitVec.ofNat 16 s.draws.deviceLq] ++
    floatWords s.lat ++ floatWords s.lon

/-- The position after one advance, the sums a NaN addend leaves open being free (43_geo_simulator.md R172). -/
def nextLat (s : State) : F64 := fAdd (fNaN (Config.freeNaN s.freeIndex)) s.lat s.draws.dlat

def nextLon (s : State) : F64 := fAdd (fNaN (Config.freeNaN (s.freeIndex + 1))) s.lon s.draws.dlon

/-! ## What the interfaces show of a run -/

/-- A write of registers, as the interfaces show it. -/
structure SeenWrite where
  first : Nat
  words : List Half
  deriving DecidableEq, Repr

/-- The write an instruction did, from its response: an SWRITE that answered OK wrote its payload, a TICK that answered OK
wrote the frame words it answers with (30_encoding.md R79), each as its operand fields and the registers take it, which
with the spec's widths is as it is (notes/assumptions/17.md). -/
def writeSeen (c : Config) (i : Instr) (r : Response) : List SeenWrite :=
  match i, r.status, r.data with
  | .swrite a n payload, .ok, _ => [⟨addressOf c a, (payload.take (countOf c n)).map (registerValue c)⟩]
  | .tick, .ok, .words ws => [⟨c.frameBase, ws.map (registerValue c)⟩]
  | _, _, _ => []

/-- The instruction the next step runs, if it runs one. -/
def nextInstr (s : State) : Option Instr :=
  match fetch s with
  | .idle _ => none
  | .request r _ =>
    match decode r.word r.payload with
    | .instr i => some i
    | .illegal _ => none
    | .payloadMismatch => none

/-- The writes a step shows. -/
def stepWrites (s : State) : List SeenWrite :=
  match nextInstr s, step s with
  | some i, .next t =>
    match t.responses.getLast? with
    | some r => writeSeen s.cfg i r
    | none => []
  | _, _ => []

/-- The writes of `n` steps, in their order. -/
def runWrites : Nat → State → List SeenWrite
  | 0, _ => []
  | n + 1, s =>
    match step s with
    | .next t => stepWrites s ++ runWrites n t
    | .fault _ => []
    | .refused _ => []

/-- What register `i` holds after the writes, in order, if it held `start` before them: the last write that covers it
decides (20_memory.md R56(a)). -/
def lastWritten (i : Nat) (start : Half) (ws : List SeenWrite) : Half :=
  ws.foldl (fun v w => if w.first ≤ i ∧ i < w.first + w.words.length then w.words.getD (i - w.first) v else v) start

/-! ## Snapshot texts (40_register_store.md R105, R106), as a grammar -/

/-- JSON white space. -/
def SpaceText (bs : List Byte) : Prop := ∀ b ∈ bs, b = 0x20 ∨ b = 0x09 ∨ b = 0x0A ∨ b = 0x0D

/-- A number token `0|[1-9][0-9]*` and its value. -/
def NumberText (bs : List Byte) (v : Nat) : Prop :=
  bs ≠ [] ∧ (∀ b ∈ bs, 0x30 ≤ b.toNat ∧ b.toNat ≤ 0x39) ∧ (bs.head? = some 0x30 → bs.length = 1) ∧
    v = bs.foldl (fun n b => 10 * n + (b.toNat - 0x30)) 0

/-- One element or more, with commas between, each with white space around it, each value in 16 bits. -/
inductive ElementsText : List Byte → List Half → Prop where
  | last {pre tok post : List Byte} {v : Half} (h1 : SpaceText pre) (h2 : NumberText tok v.toNat) (h3 : SpaceText post) :
      ElementsText (pre ++ tok ++ post) [v]
  | more {pre tok post rest : List Byte} {v : Half} {vs : List Half} (h1 : SpaceText pre) (h2 : NumberText tok v.toNat)
      (h3 : SpaceText post) (h4 : ElementsText rest vs) : ElementsText (pre ++ tok ++ post ++ 0x2C :: rest) (v :: vs)

/-- A JSON array of unsigned 16-bit integers and the list it stands for. -/
def SnapshotText (bs : List Byte) (vs : List Half) : Prop :=
  ∃ pre inner post, SpaceText pre ∧ SpaceText post ∧ bs = pre ++ 0x5B :: inner ++ 0x5D :: post ∧
    ((SpaceText inner ∧ vs = []) ∨ ElementsText inner vs)

/-- What reset takes the register file from: none for a missing, unreadable or invalid snapshot (and for no snapshot at
all), the values otherwise (40_register_store.md R106). -/
def snapshotValues : SnapshotInput → Option (List Half)
  | .notSupplied => none
  | .unreadable => none
  | .file bytes => decodeSnapshot bytes

end Sys2Proof.Machine
end

