-- ==== Sys2Proof/Certificates/Slice0/Obligations.lean ====
section
/-!
DEFINITION. The statements for the provers. Each docstring names the rule of spec/ it formalises, or says that it is
derived.
-/

open Sys2Proof Sys2Proof.Machine

/-! ## Encoding (30_encoding.md) -/

/-- Derived (30_encoding.md section 1): decoding the assembled form of a well-formed instruction gives it back, with
every operand and payload. -/
def Obligations.DecodeOfEncodeIsIdentity : Prop :=
  ∀ i : Instr, i.wellFormed = true → decode (encodeWord i) (encodePayload i) = .instr i

/-- Derived (30_encoding.md section 3): a word that decodes to an instruction is that instruction's assembled word, lies
in its row of the opcode table, and the instruction is well formed; an SWRITE carries exactly the payload given. -/
def Obligations.DecodedWordIsAssembledWord : Prop :=
  ∀ (w : Cmd) (p : List Half) (i : Instr), decode w p = .instr i →
    encodeWord i = w ∧ i.row.hits w = true ∧ i.wellFormed = true ∧ (∀ a n q, i = .swrite a n q → q = p)

/-- Derived (30_encoding.md section 3, opcode_table.json): no word lies in the rows of two different opcodes. -/
def Obligations.TableRowsAreDisjoint : Prop :=
  ∀ (i j : Instr) (w : Cmd), i.row.hits w = true → j.row.hits w = true →
    cmdOp (encodeWord i) = cmdOp (encodeWord j)

/-- R80: the assembled word as a number, and the payload words: an SWRITE's in list order, none for the other opcodes. -/
def Obligations.AssembledWordIsOpABNumber : Prop :=
  (∀ a c, (encodeWord (.hread a c)).toNat = 1 * 2 ^ 32 + a.toNat * 2 ^ 16 + c.toNat) ∧
  (∀ a c, (encodeWord (.sread a c)).toNat = 2 * 2 ^ 32 + a.toNat * 2 ^ 16 + c.toNat) ∧
  (∀ a n p, (encodeWord (.swrite a n p)).toNat = 3 * 2 ^ 32 + a.toNat * 2 ^ 16 + n.toNat ∧
    encodePayload (.swrite a n p) = p) ∧
  (encodeWord .encs).toNat = 4 * 2 ^ 32 ∧ (encodeWord .encd).toNat = 5 * 2 ^ 32 ∧
  (encodeWord .tick).toNat = 6 * 2 ^ 32 ∧ (encodeWord .gpos).toNat = 7 * 2 ^ 32 ∧
  (encodeWord .gadv).toNat = 8 * 2 ^ 32 ∧ (encodeWord .genc).toNat = 9 * 2 ^ 32 ∧
  (∀ a c, encodePayload (.hread a c) = [] ∧ encodePayload (.sread a c) = []) ∧
  (∀ i, i = .encs ∨ i = .encd ∨ i = .tick ∨ i = .gpos ∨ i = .gadv ∨ i = .genc → encodePayload i = []) ∧
  encode (.hread 3 4) = (0x100030004, []) ∧
  encode (.swrite 3 2 [0x1234, 0xABCD]) = (0x300030002, [0x1234, 0xABCD])

/-- Derived (30_encoding.md section 3): words written out from the opcode map decode to the instructions they stand
for. -/
def Obligations.SampleWordsDecode : Prop :=
  decode 0x1FFFFFFFF [] = .instr (.hread 0xFFFF 0xFFFF) ∧
  decode 0x200080002 [] = .instr (.sread 8 2) ∧
  decode 0x300030002 [0x1234, 0xABCD] = .instr (.swrite 3 2 [0x1234, 0xABCD]) ∧
  decode 0x400000000 [] = .instr .encs ∧ decode 0x500000000 [] = .instr .encd ∧
  decode 0x600000000 [] = .instr .tick ∧ decode 0x700000000 [] = .instr .gpos ∧
  decode 0x800000000 [] = .instr .gadv ∧ decode 0x900000000 [] = .instr .genc ∧
  decode 0x900000001 [] = .illegal .altitude

/-- Derived (30_encoding.md section 4, R75): exactly the listed words are illegal, every other word is an opcode's (an
SWRITE's if its payload has the length it names), and a request with an illegal word is answered with ILLEGAL_COMMAND,
no data and no state change, whoever issues it. That the tick context is not required for this is the model's reading
(notes/assumptions/8.md), and the premise on the configuration its choice (notes/assumptions/22.md). -/
def Obligations.IllegalWordsAnswerIllegalCommand : Prop :=
  (∀ w p, (∃ why, decode w p = .illegal why) ↔ IllegalWord w) ∧
  (∀ w p, ¬ IllegalWord w → (w.toNat / 2 ^ 32 = 3 → p.length = w.toNat % 2 ^ 16) → ∃ i, decode w p = .instr i) ∧
  (∀ s r t, fetch s = .request r t → IllegalWord r.word → configValid s.cfg = true →
    step s = .next (t.respond .illegalCommand .none) ∧ SameBlock s (t.respond .illegalCommand .none))

/-- R78: the expansions of RDREGS and TICKN for every operand they admit, and of WRREG, which is well formed. -/
def Obligations.PseudoInstructionsExpand : Prop :=
  (∀ a n, n ≤ 32767 → ∃ c : Half, rdregs a n = some (.hread a c) ∧ c.toNat = 2 * n ∧
    registersOfBytes (operand c) = n) ∧
  (∀ a n, 32767 < n → rdregs a n = none) ∧
  (∀ a v, wrreg a v = .swrite a 1 [v] ∧ (wrreg a v).wellFormed = true) ∧
  (∀ ds : List Draws, (tickn ds).length = ds.length ∧
    ∀ k (h : k < ds.length), (tickn ds)[k]? = some ⟨.tick, 0x600000000, [], ds[k]⟩)

/-! ## Steps and contexts -/

/-- Derived (20_memory.md section 6; 60_exceptions.md section 3, R203): when the request to be served decodes to an
instruction, a step is exec of it on the state that has taken the request out of the pending ones, with its context and
draws at the interfaces (the model's fields for them, notes/assumptions/5.md). Which request that is, the spec leaves
free; the model's choice (notes/assumptions/1.md) is the oldest one while no turn is left, else the oldest one of the
context whose turn it is, and the turn is used up. -/
def Obligations.StepRunsTheDecodedRequest : Prop :=
  ∀ (s : State) (r : Request) (i : Instr), decode r.word r.payload = .instr i →
    (∀ rest, s.turns = [] → s.pending = r :: rest → step s = exec i (s.accept r rest [])) ∧
    (∀ before after turns, s.turns = r.ctx :: turns → s.pending = before ++ r :: after →
      (∀ q ∈ before, q.ctx ≠ r.ctx) → step s = exec i (s.accept r (before ++ after) turns))

/-- Derived (10_state.md section 7, R31): a step that serves a request answers with exactly one more response, to the
context that issued it, and one request fewer is pending; a step that serves none answers nothing. -/
def Obligations.EveryRequestGetsOneResponse : Prop :=
  ∀ s t : State, step s = .next t →
    (∀ r u, fetch s = .request r u →
      t.pending.length + 1 = s.pending.length ∧
      ∃ status data, t.responses = s.responses ++ [⟨r.ctx, status, data⟩]) ∧
    (∀ u, fetch s = .idle u → t.responses = s.responses ∧ t.pending = s.pending)

/-- Derived (20_memory.md section 6, R56): serving a request keeps every context's own order: it is the first of its
context's requests, and what is left of every context's requests stands as before. -/
def Obligations.ContextsKeepTheirOwnOrder : Prop :=
  ∀ (s t : State) (r : Request), fetch s = .request r t →
    s.pending.filter (fun q => decide (q.ctx = r.ctx)) = r :: t.pending.filter (fun q => decide (q.ctx = r.ctx)) ∧
    ∀ c, c ≠ r.ctx →
      s.pending.filter (fun q => decide (q.ctx = c)) = t.pending.filter (fun q => decide (q.ctx = c))

/-- Derived (60_exceptions.md section 6, R210): with no request and no turn pending a step changes nothing; a turn of a
context that has nothing pending passes and changes nothing else (that such a turn takes a step is the model's choice,
notes/assumptions/1.md). -/
def Obligations.NothingHappensWithoutARequest : Prop :=
  ∀ s : State, (s.turns = [] → s.pending = [] → step s = .next s) ∧
    ∀ c turns, s.turns = c :: turns → (∀ q ∈ s.pending, q.ctx ≠ c) → step s = .next { s with turns := turns }

/-- Derived (60_exceptions.md R211; 70_reset_and_hazards.md R227; 60_exceptions.md R207): an instruction is refused
exactly where the configuration breaks R6, a mutating opcode comes from a read context, a draw lies outside its set, or
an SWRITE's payload is not as long as its length says. Everything else answers a next state, whatever the operands and
the widths. A step refuses an SWRITE with a payload of another length (notes/assumptions/23.md), and every request under
a bad configuration, an illegal word too (the model's choice, notes/assumptions/22.md). Reset refuses a bad
configuration and an initial draw that is not finite. -/
def Obligations.RefusalsAreExactlyTheListedOnes : Prop :=
  (∀ (i : Instr) (s : State), (∃ r, exec i s = .refused r) ↔ ¬ Admitted i s) ∧
  (∀ (i : Instr) (s : State), (∃ t, exec i s = .next t) ↔ Admitted i s) ∧
  (∀ (s t : State) (r : Request), fetch s = .request r t →
    decode r.word r.payload = .payloadMismatch ∨ configValid s.cfg = false → ∃ q, step s = .refused q) ∧
  (∀ (c : Config) (inp : ResetInputs), (∃ r, bootReset c inp = .refused r) ↔
    configValid c = false ∨
      (inp.geoInit = none ∧ (fIsFinite inp.geoDraw.lat = false ∨ fIsFinite inp.geoDraw.lon = false)))

/-- Derived (00_scope.md section 3, R6): the configurations that are admitted. The ranges are non-empty and within
0..65535, STATION_LQ_RANGE is finite and ordered by value, the periods are at least 1, the frame lengths are even, at
least 16 and exactly 22 and large enough for their layouts, and GEO_STEP is finite and not negative. That a layout fits
when each field ends within its frame is the model's reading (notes/assumptions/13.md). -/
def Obligations.AdmittedConfigurationsAreThoseOfTheScope : Prop :=
  ∀ c : Config, configValid c = true ↔
    (GoodRange c.stationInc ∧ GoodRange c.deviceInc ∧ GoodRange c.devcountRange ∧ GoodRange c.signalRange ∧
      GoodRange c.deviceLqRange) ∧
    (fIsFinite c.stationLqRange.lo = true ∧ fIsFinite c.stationLqRange.hi = true ∧
      fScaled c.stationLqRange.lo ≤ fScaled c.stationLqRange.hi) ∧
    (1 ≤ c.stationDropPeriod ∧ 1 ≤ c.deviceDropPeriod) ∧
    (c.stationFrameBytes % 2 = 0 ∧ 16 ≤ c.stationFrameBytes ∧ c.deviceFrameBytes = 22 ∧ LayoutsFit c) ∧
    (fIsFinite c.geoStep = true ∧ 0 ≤ fScaled c.geoStep)

/-- Derived (10_state.md section 6, R30): which state each opcode may write, and that a read context cannot issue a
mutating one. Nothing but the state named changes, besides the one response. (Which registers SWRITE and TICK leave is in
SwriteStoresAllOrNothing and TickEncodesAdvancesAndWrites.) -/
def Obligations.WritesFollowTheAccessMatrix : Prop :=
  (∀ (i : Instr) (s t : State), exec i s = .next t →
    t.cfg = s.cfg ∧ t.cap = s.cap ∧ t.ctx = s.ctx ∧ t.draws = s.draws ∧ t.pending = s.pending ∧ t.turns = s.turns ∧
    (∃ r, t.responses = s.responses ++ [r]) ∧
    (stores i = false → t.reg = s.reg) ∧
    (encodes i = false → t.msg = s.msg ∧ t.ticks = s.ticks) ∧
    (moves i = false → t.lat = s.lat ∧ t.lon = s.lon ∧ t.freeIndex = s.freeIndex)) ∧
  (∀ (i : Instr) (s : State) (k : Nat), s.ctx = .read k → mutates i = true → ∃ r, exec i s = .refused r)

/-! ## Widths -/

/-- Derived (00_scope.md section 3, R5), the model's choice (notes/assumptions/17.md): places of 16 bits or more, as all
are with the spec's widths, hold every operand and every word, and what fits is taken as it is. Where a narrower place
does not hold an operand or a payload word, the instruction runs as it does on some values that fit, which are free. -/
def Obligations.TooWideValuesActAsSomeThatFit : Prop :=
  (∀ (c : Config) (a n : Half) (ws : List Half), 16 ≤ c.addrW → 16 ≤ c.cntW → 16 ≤ c.regW →
    FieldsFit c a n ∧ WordsFit c ws) ∧
  (∀ (c : Config) (a n v : Half), (a.toNat < 2 ^ c.addrW → addressOf c a = a.toNat) ∧
    (n.toNat < 2 ^ c.cntW → countOf c n = n.toNat) ∧ (v.toNat < 2 ^ c.regW → registerValue c v = v)) ∧
  (∀ (s : State) (a n : Half), ∃ a' n' : Half, a'.toNat = addressOf s.cfg a ∧ n'.toNat = countOf s.cfg n ∧
    FieldsFit s.cfg a' n' ∧ exec (.hread a n) s = exec (.hread a' n') s ∧
    exec (.sread a n) s = exec (.sread a' n') s ∧
    ∀ p : List Half, p.length = n.toNat → ∃ p' : List Half, p'.length = n'.toNat ∧ WordsFit s.cfg p' ∧
      p' = (p.take n'.toNat).map (registerValue s.cfg) ∧ exec (.swrite a n p) s = exec (.swrite a' n' p') s)

/-! ## The register file -/

/-- R100: SREAD answers the `c` registers from `a`, or OUT_OF_RANGE with no words, and changes nothing; the bound is on
unbounded integers. (The operands fit in ADDR_W and CNT_W bits, as all do under the spec's widths.) -/
def Obligations.SreadAnswersTheRegisters : Prop :=
  ∀ (a c : Half) (s : State), configValid s.cfg = true → FieldsFit s.cfg a c →
    (a.toNat + c.toNat ≤ s.cap → ∃ ws : List Half, exec (.sread a c) s = .next (s.respond .ok (.words ws)) ∧
      ws.length = c.toNat ∧ ∀ k, k < c.toNat → ws[k]? = some (readReg s.reg (a.toNat + k))) ∧
    (s.cap < a.toNat + c.toNat → exec (.sread a c) s = .next (s.respond .outOfRange (.words [])) ∧
      statusCode .outOfRange = 0x02)

/-- R101: SWRITE overwrites exactly the registers from `a` with the payload, or writes none and answers OUT_OF_RANGE; no
other state changes. From a read context it is refused. (The premise on the memory is its canonical form, an invariant;
operands and payload fit in their widths, as all do under the spec's.) -/
def Obligations.SwriteStoresAllOrNothing : Prop :=
  ∀ (a n : Half) (p : List Half) (s : State), configValid s.cfg = true → FieldsFit s.cfg a n → WordsFit s.cfg p →
    p.length = n.toNat →
    (s.ctx = .tick → Memory.wf s.reg = true → a.toNat + n.toNat ≤ s.cap →
      ∃ t, exec (.swrite a n p) s = .next t ∧ AnswersOnly s t ⟨.tick, .ok, .none⟩ ∧
        (∀ k, k < n.toNat → p[k]? = some (readReg t.reg (a.toNat + k))) ∧
        (∀ x, x < 2 * a.toNat ∨ 2 * (a.toNat + n.toNat) ≤ x → memGet t.reg x = memGet s.reg x) ∧
        t.cap = s.cap ∧ t.msg = s.msg ∧ t.ticks = s.ticks ∧ t.lat = s.lat ∧ t.lon = s.lon ∧
        t.freeIndex = s.freeIndex) ∧
    (s.ctx = .tick → s.cap < a.toNat + n.toNat →
      exec (.swrite a n p) s = .next (s.respond .outOfRange .none)) ∧
    (∀ k, s.ctx = .read k → exec (.swrite a n p) s = .refused .mutatingFromReadContext)

/-- R60: the reading opcodes have no side effects; two reads of the same span with no write between them (the register
file, the capacity and the parameters the same, whatever else changed) return equal data; the same SWRITE twice leaves
the same registers. -/
def Obligations.ReadsHaveNoSideEffectsAndRepeat : Prop :=
  (∀ (i : Instr) (s t : State), mutates i = false → exec i s = .next t →
    SameBlock s t ∧ t.freeIndex = s.freeIndex ∧ ∃ r, AnswersOnly s t r) ∧
  (∀ (a c : Half) (s t u v : State) (i : Instr), i = .hread a c ∨ i = .sread a c →
    u.cfg = s.cfg → u.reg = s.reg → u.cap = s.cap →
    exec i s = .next t → exec i u = .next v →
    ∃ status data, t.responses = s.responses ++ [⟨s.ctx, status, data⟩] ∧
      v.responses = u.responses ++ [⟨u.ctx, status, data⟩]) ∧
  (∀ (a n : Half) (p : List Half) (s t u : State), Memory.wf s.reg = true →
    exec (.swrite a n p) s = .next t → exec (.swrite a n p) t = .next u → u.reg = t.reg)

/-- R154 (with R151, R152, R153): HREAD's buffer in range and out of range, byte for byte, and that it changes nothing.
(The operands fit in ADDR_W and CNT_W bits, as all do under the spec's widths.) -/
def Obligations.HreadAnswersTheBuffer : Prop :=
  ∀ (a c : Half) (s : State), configValid s.cfg = true → FieldsFit s.cfg a c →
    (a.toNat + (c.toNat + 1) / 2 ≤ s.cap → ∃ buf : List Byte,
      exec (.hread a c) s = .next (s.respond .ok (.bytes buf)) ∧ buf.length = c.toNat + 1 ∧
      (∃ b0, buf[0]? = some b0 ∧ b0.toNat = c.toNat % 256) ∧
      ∀ i, i < c.toNat → ∃ b, buf[1 + i]? = some b ∧
        b.toNat = if i % 2 = 0 then (readReg s.reg (a.toNat + i / 2)).toNat / 256
          else (readReg s.reg (a.toNat + i / 2)).toNat % 256) ∧
    (s.cap < a.toNat + (c.toNat + 1) / 2 → ∃ buf : List Byte,
      exec (.hread a c) s = .next (s.respond .illegalDataAddress (.bytes buf)) ∧ buf.length = c.toNat + 1 ∧
      ∀ b ∈ buf, b = 0)

/-- R156: in range, HREAD's data bytes are the first `c` bytes of the big-endian words that SREAD of `ceil(c/2)`
registers answers in the same state; and on a capacity of 10, SREAD 8, 4 fails where HREAD 8, 4 succeeds. -/
def Obligations.HreadBytesAreSreadWordsInBytes : Prop :=
  (∀ (a c n : Half) (s : State), configValid s.cfg = true → FieldsFit s.cfg a c → n.toNat = (c.toNat + 1) / 2 →
    a.toNat + n.toNat ≤ s.cap → ∃ (buf : List Byte) (ws : List Half),
      exec (.hread a c) s = .next (s.respond .ok (.bytes buf)) ∧
      exec (.sread a n) s = .next (s.respond .ok (.words ws)) ∧
      buf.drop 1 = (ws.flatMap be16).take c.toNat) ∧
  (∀ s : State, configValid s.cfg = true → FieldsFit s.cfg 8 4 → s.cap = 10 →
    exec (.sread 8 4) s = .next (s.respond .outOfRange (.words [])) ∧
    ∃ buf, exec (.hread 8 4) s = .next (s.respond .ok (.bytes buf)))

/-- Derived (20_memory.md section 2, R52): a register's two bytes are its quotient and remainder by 256, high byte first,
and give the register back. -/
def Obligations.RegisterBytesRoundTrip : Prop :=
  ∀ v : Half, ∃ h l : Byte, be16 v = [h, l] ∧ h.toNat = v.toNat / 256 ∧ l.toNat = v.toNat % 256 ∧
    pairWords (be16 v) = [v]

/-! ## The telemetry encoder -/

/-- R127 (with R124): ENCS under the default layout and MSG_W: both counters, the twenty words, and nothing else. -/
def Obligations.EncsBuildsTheStationFrame : Prop :=
  ∀ s : State, configValid s.cfg = true → DefaultFrames s.cfg → s.cfg.msgW = 16 → s.ctx = .tick →
    StationDraws s.cfg s.draws →
    exec .encs s = .next (State.respond { s with ticks := s.ticks + 1, msg := nextMsg s } .ok (.words (stationWords s)))

/-- R128 (with R125): ENCD under the default layout and MSG_W: both counters, the eleven words with the position before
the advance, the one advance, and nothing else. -/
def Obligations.EncdBuildsTheDeviceFrame : Prop :=
  ∀ s : State, configValid s.cfg = true → DefaultFrames s.cfg → s.cfg.msgW = 16 → s.ctx = .tick →
    DeviceDraws s.cfg s.draws →
    exec .encd s = .next (State.respond
      { s with ticks := s.ticks + 1, msg := nextMsg s, lat := nextLat s, lon := nextLon s, freeIndex := s.freeIndex + 2 }
      .ok (.words (deviceWords s)))

/-- R130: whatever the layout and the draws, ENCS and ENCD complete with frames of exactly the declared length, so half
as many words, and both counters advance. -/
def Obligations.FrameLengthsAreFixed : Prop :=
  ∀ s : State, configValid s.cfg = true → s.ctx = .tick →
    (StationDraws s.cfg s.draws → ∃ t ws, exec .encs s = .next t ∧
      t.responses = s.responses ++ [⟨.tick, .ok, .words ws⟩] ∧ 2 * ws.length = s.cfg.stationFrameBytes ∧
      t.ticks = s.ticks + 1 ∧ (s.cfg.msgW = 16 → t.msg = nextMsg s)) ∧
    (DeviceDraws s.cfg s.draws → ∃ t ws, exec .encd s = .next t ∧
      t.responses = s.responses ++ [⟨.tick, .ok, .words ws⟩] ∧ 2 * ws.length = s.cfg.deviceFrameBytes ∧
      ws.length = 11 ∧ t.ticks = s.ticks + 1 ∧ (s.cfg.msgW = 16 → t.msg = nextMsg s) ∧
      t.lat = nextLat s ∧ t.lon = nextLon s) ∧
    (∀ st msg d lat lon, (stationFrame s.cfg st msg d).length = s.cfg.stationFrameBytes ∧
      (deviceFrame s.cfg st msg d lat lon).length = s.cfg.deviceFrameBytes)

/-- R122: the first word of every encode is 0 exactly on a multiple of the class's period with the drop boolean 0, and
0x0100 otherwise. -/
def Obligations.StatusDropsOnlyOnThePeriod : Prop :=
  ∀ (i : Instr) (s t : State) (w : Half) (ws : List Half), DefaultFrames s.cfg →
    i = .encs ∨ i = .encd ∨ i = .tick → exec i s = .next t →
    (∃ status, t.responses = s.responses ++ [⟨.tick, status, .words (w :: ws)⟩]) →
    ∀ period, (period = if i = .encs ∨ (i = .tick ∧ s.cfg.deviceClass = .station) then s.cfg.stationDropPeriod
        else s.cfg.deviceDropPeriod) →
      ((w = 0x0000 ∧ (s.ticks + 1) % period = 0 ∧ s.draws.b = false) ∨
        (w = 0x0100 ∧ ¬((s.ticks + 1) % period = 0 ∧ s.draws.b = false)))

/-- R123: with the spec's MSG_W each encode adds its increment draw to the message counter modulo 65536, and the
increment lies in the class's range; from 65535 an increment of 1 gives 0 and one of 50 gives 49. -/
def Obligations.MessageCounterWraps : Prop :=
  (∀ (i : Instr) (s t : State), s.cfg.msgW = 16 → encodes i = true → exec i s = .next t →
    t.msg = (s.msg + s.draws.inc) % 65536 ∧
    (incRange s.cfg i).lo ≤ s.draws.inc ∧ s.draws.inc ≤ (incRange s.cfg i).hi) ∧
  (∀ (s t : State), s.cfg.msgW = 16 → exec .encs s = .next t → s.msg = 65535 →
    (s.draws.inc = 1 → t.msg = 0) ∧ (s.draws.inc = 50 → t.msg = 49))

/-- Derived (10_state.md section 3, R24, R25; 41_telemetry_encoder.md R121, R123): every step that runs an encode counts
one tick and moves the message counter by an increment of the range configured for its class; every other step leaves
both counters. (That a counter of another MSG_W than 16 wraps at 2^MSG_W is the model's choice,
notes/assumptions/17.md.) -/
def Obligations.OnlyEncodesMoveTheCounters : Prop :=
  ∀ s t : State, step s = .next t →
    (∀ i, nextInstr s = some i → encodes i = true →
      t.ticks = s.ticks + 1 ∧ t.msg = (s.msg + t.draws.inc) % 2 ^ s.cfg.msgW ∧
      (incRange s.cfg i).lo ≤ t.draws.inc ∧ t.draws.inc ≤ (incRange s.cfg i).hi) ∧
    ((∀ i, nextInstr s = some i → encodes i = false) → t.ticks = s.ticks ∧ t.msg = s.msg)

/-- R129 (and R131): one TICK encodes with the configured class, moves the position once, and writes the words at
FRAME_BASE (each that fits in a register, as all do with the spec's REG_W) or, where they do not fit the capacity,
writes nothing and answers OUT_OF_RANGE with the same words, keeping the encode's effects. (The premise on the memory is
its canonical form, an invariant.) -/
def Obligations.TickEncodesAdvancesAndWrites : Prop :=
  ∀ s : State, Admitted .tick s → Memory.wf s.reg = true →
    ∃ (t : State) (ws : List Half), exec .tick s = .next t ∧
      t.ticks = s.ticks + 1 ∧ (s.cfg.msgW = 16 → t.msg = nextMsg s) ∧ t.lat = nextLat s ∧ t.lon = nextLon s ∧
      t.cap = s.cap ∧ t.cfg = s.cfg ∧ t.ctx = s.ctx ∧ t.draws = s.draws ∧ t.pending = s.pending ∧ t.turns = s.turns ∧
      t.freeIndex = s.freeIndex + 2 ∧
      (s.cfg.deviceClass = .station → ∃ e, exec .encs s = .next e ∧
        e.responses = s.responses ++ [⟨.tick, .ok, .words ws⟩]) ∧
      (s.cfg.deviceClass = .device → ∃ e, exec .encd s = .next e ∧
        e.responses = s.responses ++ [⟨.tick, .ok, .words ws⟩]) ∧
      (s.cfg.frameBase + ws.length ≤ s.cap →
        t.responses = s.responses ++ [⟨.tick, .ok, .words ws⟩] ∧
        (∀ j (h : j < ws.length), ws[j].toNat < 2 ^ s.cfg.regW → readReg t.reg (s.cfg.frameBase + j) = ws[j]) ∧
        ∀ x, x < 2 * s.cfg.frameBase ∨ 2 * (s.cfg.frameBase + ws.length) ≤ x → memGet t.reg x = memGet s.reg x) ∧
      (s.cap < s.cfg.frameBase + ws.length →
        t.responses = s.responses ++ [⟨.tick, .outOfRange, .words ws⟩] ∧ t.reg = s.reg)

/-- Derived (20_memory.md section 2, R53 and R65; 41_telemetry_encoder.md R124): after a station TICK that fits, under
the default layout, REG_W and MSG_W, the frame's fields stand in the registers from FRAME_BASE: status, counter, count,
signal, the four words of the link quality, most significant first, and zeros. -/
def Obligations.StationTickFillsTheRegisters : Prop :=
  ∀ s t : State, DefaultFrames s.cfg → 16 ≤ s.cfg.regW → s.cfg.msgW = 16 →
    s.cfg.deviceClass = .station → Memory.wf s.reg = true →
    s.cfg.frameBase + 20 ≤ s.cap → exec .tick s = .next t →
      ∀ j (h : j < (stationWords s).length), readReg t.reg (s.cfg.frameBase + j) = (stationWords s)[j]

/-- Derived (70_reset_and_hazards.md section 3, R226): an HREAD of the whole frame after a TICK that fits answers that
TICK's words, in bytes, high byte first. (The registers have 16 bits, as with the spec's REG_W, or more, and the
operands fit in their widths.) -/
def Obligations.HreadAfterTickSeesItsFrame : Prop :=
  ∀ (s t : State) (ws : List Half) (a c : Half) (k : Nat), Memory.wf s.reg = true → 16 ≤ s.cfg.regW →
    FieldsFit s.cfg a c → exec .tick s = .next t →
    t.responses = s.responses ++ [⟨.tick, .ok, .words ws⟩] → a.toNat = s.cfg.frameBase → c.toNat = 2 * ws.length →
      ∃ u, exec (.hread a c) { t with ctx := .read k } = .next u ∧
        u.responses = t.responses ++ [⟨.read k, .ok, .bytes (BitVec.ofNat 8 c.toNat :: ws.flatMap be16)⟩]

/-! ## The position -/

/-- R171: GPOS answers the position bit for bit, from any context, and changes nothing. -/
def Obligations.GposAnswersThePosition : Prop :=
  ∀ s : State, configValid s.cfg = true → exec .gpos s = .next (s.respond .ok (.position s.lat s.lon))

/-- R172: GADV adds its own delta to each coordinate and changes nothing else; a delta that is NaN or larger than
GEO_STEP is refused. -/
def Obligations.GadvTakesOneStep : Prop :=
  ∀ s : State, configValid s.cfg = true → s.ctx = .tick →
    (GeoDraws s.cfg s.draws →
      exec .gadv s = .next (State.respond
        { s with lat := nextLat s, lon := nextLon s, freeIndex := s.freeIndex + 2 } .ok .none)) ∧
    (fIsNaN s.draws.dlat = true ∨ fMagnitude s.cfg.geoStep < fMagnitude s.draws.dlat ∨
      fIsNaN s.draws.dlon = true ∨ fMagnitude s.cfg.geoStep < fMagnitude s.draws.dlon →
        exec .gadv s = .refused .drawOutOfSet)

/-- Derived (43_geo_simulator.md R173, R174): GENC answers sixteen bytes and changes nothing; in the default byte order
they are the big-endian bytes of the latitude and then of the longitude; in the other order (the model's parameter and
its choice, notes/assumptions/14.md) each group of eight is reversed. -/
def Obligations.GencAnswersTheEncodedPosition : Prop :=
  ∀ s : State, configValid s.cfg = true → ∃ la lo : List Byte,
    exec .genc s = .next (s.respond .ok (.bytes (la ++ lo))) ∧ la.length = 8 ∧ lo.length = 8 ∧
    (s.cfg.floatOrder = .big →
      la.foldl (fun n b => n * 256 + b.toNat) 0 = s.lat.toNat ∧
      lo.foldl (fun n b => n * 256 + b.toNat) 0 = s.lon.toNat) ∧
    (s.cfg.floatOrder = .little →
      la.reverse.foldl (fun n b => n * 256 + b.toNat) 0 = s.lat.toNat ∧
      lo.reverse.foldl (fun n b => n * 256 + b.toNat) 0 = s.lon.toNat)

/-- Derived (00_scope.md section 4, `+f`; notes/assumptions/11.md): the sum of two finite values, where it is finite, is
nearest to the exact sum among all finite values, and where another value is as near, the sum's last significand bit is
0. -/
def Obligations.SumIsNearestTiesToEven : Prop :=
  ∀ nan x y : F64, fIsFinite x = true → fIsFinite y = true → fIsFinite (fAdd nan x y) = true →
    ∀ w : F64, fIsFinite w = true →
      (fScaled (fAdd nan x y) - (fScaled x + fScaled y)).natAbs ≤ (fScaled w - (fScaled x + fScaled y)).natAbs ∧
      ((fScaled (fAdd nan x y) - (fScaled x + fScaled y)).natAbs = (fScaled w - (fScaled x + fScaled y)).natAbs →
        fScaled w ≠ fScaled (fAdd nan x y) → fFraction (fAdd nan x y) % 2 = 0)

/-- Derived (00_scope.md section 4, `+f`; 43_geo_simulator.md section 2; notes/assumptions/11.md): a sum of finite values
overflows to the infinity of its sign exactly from half a unit above the largest finite value on, is never NaN, and an
exact zero is +0.0 unless both addends are -0.0. -/
def Obligations.SumOverflowsToInfinity : Prop :=
  ∀ nan x y : F64, fIsFinite x = true → fIsFinite y = true →
    (fIsFinite (fAdd nan x y) = false ↔ (2 ^ 54 - 1) * 2 ^ 2044 ≤ (fScaled x + fScaled y).natAbs) ∧
    fIsNaN (fAdd nan x y) = false ∧
    (fScaled x + fScaled y ≠ 0 → (fSign (fAdd nan x y) = true ↔ fScaled x + fScaled y < 0)) ∧
    (fScaled x + fScaled y = 0 → fAdd nan x y = if fSign x && fSign y then 0x8000000000000000 else 0)

/-- Derived (41_telemetry_encoder.md section 4, the corner case of R128): a delta of +0.0 or -0.0 leaves any coordinate
as it was, except that +0.0 turns -0.0 into +0.0. That this holds of a NaN coordinate too is the model's reading of that
corner case (notes/assumptions/10.md). -/
def Obligations.ZeroDeltaKeepsThePosition : Prop :=
  ∀ nan x d : F64, fIsZero d = true →
    fAdd nan x d = if x = 0x8000000000000000 ∧ d = 0 then 0 else x

/-- Derived, the model's choice where the spec states no value (notes/assumptions/10.md): a sum with a NaN addend is a
NaN, whichever the free value is. -/
def Obligations.SumWithNaNIsNaN : Prop :=
  ∀ (raw : BitVec 64) (x y : F64), fIsNaN x = true ∨ fIsNaN y = true → fIsNaN (fAdd (fNaN raw) x y) = true

/-! ## Invariants and runs -/

/-- Derived (20_memory.md section 1, R50; 10_state.md R21, R24; notes/assumptions/12.md and 17.md): every step keeps the
register file in its canonical form and within the capacity, and its registers and the message counter within their
widths. -/
def Obligations.StepKeepsTheInvariant : Prop :=
  ∀ s t : State, Invariant s → step s = .next t → Invariant t

/-- Derived (70_reset_and_hazards.md section 1; notes/assumptions/12.md): the invariant holds at reset, and after a reset
with any configuration and any inputs. -/
def Obligations.ResetMeetsTheInvariant : Prop :=
  Invariant State.reset ∧
    ∀ (c : Config) (inp : ResetInputs) (b : Booted), bootReset c inp = .next b → Invariant b.state

/-- R22: reset sets the capacity to the length of a decoded snapshot, else to DEFAULT_CAP, which is 65536 in the
configuration of reset; any length is possible; no step changes it, nor the configuration. -/
def Obligations.CapacityIsSetAtResetOnly : Prop :=
  (∀ (c : Config) (inp : ResetInputs) (b : Booted), bootReset c inp = .next b →
    (∀ vs, snapshotValues inp.snapshot = some vs → b.state.cap = vs.length) ∧
    (snapshotValues inp.snapshot = none → b.state.cap = c.defaultCap)) ∧
  State.reset.cap = 65536 ∧
  (∀ n : Nat, ∃ bytes, ∃ vs : List Half, decodeSnapshot bytes = some vs ∧ vs.length = n) ∧
  (∀ s t : State, step s = .next t → t.cap = s.cap ∧ t.cfg = s.cfg)

/-- Derived (20_memory.md section 6, R56(a)): after any number of steps a register holds what the last write the
interfaces show for it wrote (an SWRITE that answered OK, or a TICK that answered OK with its words), or what it held
before. (With a REG_W, ADDR_W or CNT_W below the spec's, what the write wrote is as notes/assumptions/17.md says.) -/
def Obligations.RegistersHoldTheLastWrite : Prop :=
  ∀ (n : Nat) (s t : State), Memory.wf s.reg = true → Host.Core.run Sys2Proof.core n s = .next t →
    ∀ i, readReg t.reg i = lastWritten i (readReg s.reg i) (runWrites n s)

/-- Derived (20_memory.md section 6, R56(b); 95_test_vectors.md P6): of a TICK and a read (HREAD or SREAD) pending
together, whichever is served first, the read's whole answer is that on the registers before the TICK or that on the
registers after it, and the block ends in the same state. (The turns that say which is first are the model's,
notes/assumptions/1.md.) -/
def Obligations.ReadSeesAWholeFrameOrNone : Prop :=
  ∀ (s : State) (a c : Half) (k : Nat) (read : Instr) (tickReq readReq : Request),
    read = .hread a c ∨ read = .sread a c →
    tickReq.ctx = .tick → tickReq.word = 0x600000000 → readReq.ctx = .read k → readReq.word = encodeWord read →
    s.pending = [tickReq, readReq] → Admitted .tick (s.accept tickReq [] []) →
    ∃ (first second : State) (r1 r2 tickRsp : Response),
      Host.Core.run Sys2Proof.core 2 { s with turns := [.read k, .tick] } = .next first ∧
      Host.Core.run Sys2Proof.core 2 { s with turns := [.tick, .read k] } = .next second ∧
      exec read { s with ctx := .read k } = .next (State.respond { s with ctx := .read k } r1.status r1.data) ∧
      exec read { first with ctx := .read k } =
        .next (State.respond { first with ctx := .read k } r2.status r2.data) ∧
      r1.ctx = .read k ∧ r2.ctx = .read k ∧ tickRsp.ctx = .tick ∧
      first.responses = s.responses ++ [r1, tickRsp] ∧ second.responses = s.responses ++ [tickRsp, r2] ∧
      SameBlock first second

/-- Derived (10_state.md sections 7 and 8, R33, R34): what HREAD and SREAD answer depends on the registers, the capacity
and the operands alone: two states that differ in the counters, the position and the draws answer alike. -/
def Obligations.ReadsRevealOnlyTheRegisters : Prop :=
  ∀ (s u : State) (a c : Half), configValid s.cfg = true → configValid u.cfg = true →
    u.cfg.addrW = s.cfg.addrW → u.cfg.cntW = s.cfg.cntW → u.cap = s.cap →
    (∀ i, i < s.cap → readReg u.reg i = readReg s.reg i) →
    (∃ st d, exec (.hread a c) s = .next (s.respond st d) ∧ exec (.hread a c) u = .next (u.respond st d)) ∧
    (∃ st d, exec (.sread a c) s = .next (s.respond st d) ∧ exec (.sread a c) u = .next (u.respond st d))

/-! ## Reset -/

/-- R35 (with R107, R108, R222): what reset leaves, for every admitted configuration and every input: the registers of
the snapshot (each element that fits in a register, as all do with the spec's REG_W) or zeros, the counters 0, the
reference point or the draw. -/
def Obligations.ResetLeavesTheSpecState : Prop :=
  ∀ (c : Config) (inp : ResetInputs), configValid c = true →
    (inp.geoInit = none → fIsFinite inp.geoDraw.lat = true ∧ fIsFinite inp.geoDraw.lon = true) →
    ∃ b : Booted, bootReset c inp = .next b ∧ b.state.cfg = c ∧ b.state.msg = 0 ∧ b.state.ticks = 0 ∧
      (∀ p, inp.geoInit = some p → b.state.lat = p.lat ∧ b.state.lon = p.lon) ∧
      (inp.geoInit = none → b.state.lat = inp.geoDraw.lat ∧ b.state.lon = inp.geoDraw.lon) ∧
      (snapshotValues inp.snapshot = none → b.state.cap = c.defaultCap ∧ ∀ i, readReg b.state.reg i = 0) ∧
      (∀ vs, snapshotValues inp.snapshot = some vs → b.state.cap = vs.length ∧
        ∀ i (h : i < vs.length), vs[i].toNat < 2 ^ c.regW → readReg b.state.reg i = vs[i])

/-- Derived (70_reset_and_hazards.md section 1, R221): the snapshot status reset reports. -/
def Obligations.ResetReportsTheSnapshotStatus : Prop :=
  ∀ (c : Config) (inp : ResetInputs) (b : Booted), bootReset c inp = .next b →
    (b.snapStatus = .snapNone ↔ inp.snapshot = .notSupplied) ∧
    (b.snapStatus = .snapOk ↔ ∃ vs, snapshotValues inp.snapshot = some vs) ∧
    (b.snapStatus = .snapInvalid ↔ inp.snapshot ≠ .notSupplied ∧ snapshotValues inp.snapshot = none)

/-- Derived (40_register_store.md R105, R106): the snapshot reader accepts exactly the texts of the grammar (a JSON
array of decimal integers of at most 16 bits), with the values they name, and an unreadable file gives none. The set of
white space and that a trailing comma, a leading zero or a byte order mark is an error are presumed from the JSON
grammar (notes/assumptions/15.md). -/
def Obligations.SnapshotReaderMeetsTheGrammar : Prop :=
  (∀ (bytes : List Byte) (vs : List Half), decodeSnapshot bytes = some vs ↔ SnapshotText bytes vs) ∧
  snapshotValues .unreadable = none

/-- Derived, the model's choice (notes/assumptions/3.md and 4.md): State.reset is the reset of the configuration the log
names, with no snapshot, no reference point, and the free finite draw. -/
def Obligations.ResetStateIsAReset : Prop :=
  bootReset Config.atReset ⟨.notSupplied, none, ⟨drawnLatitude, drawnLongitude⟩⟩ = .next ⟨State.reset, .snapNone⟩

/-! ## Statuses and the host's table words -/

/-- R202: the status codes; no other code is produced. -/
def Obligations.StatusCodesAreThree : Prop :=
  statusCode .ok = 0x00 ∧ statusCode .illegalCommand = 0x01 ∧ statusCode .illegalDataAddress = 0x02 ∧
    statusCode .outOfRange = 0x02 ∧ ∀ st : Status, (statusCode st).toNat ≤ 2

/-- Derived, about the host's interface (notes/assumptions/18.md): from any state with an admitted configuration, the
next step serves the request of the placed table word, runs the instruction the decoder reads from it, and answers a
next state. -/
def Obligations.PlacedTableWordRunsNext : Prop :=
  ∀ (s : State) (nbits w : Nat) (i : Instr), decodeTableWord nbits w = some i → configValid s.cfg = true →
    ∃ word payload t, tableWord nbits w = some (word, payload) ∧ decode word payload = .instr i ∧
      step (s.withFetchWord nbits w) = exec i (s.accept (tableRequest s.cfg word payload) s.pending s.turns) ∧
      exec i (s.accept (tableRequest s.cfg word payload) s.pending s.turns) = .next t
end

