-- ==== Sys2Proof/Laws/Encoding.lean ====
section
/-!
SUPPORT. The fields of an assembled command word.
-/

namespace Sys2Proof

theorem cmdWord_toNat (op : BitVec 4) (a b : Half) :
    (cmdWord op a b).toNat = op.toNat * 2 ^ 32 + a.toNat * 2 ^ 16 + b.toNat := by
  have := a.isLt
  have := b.isLt
  have := op.isLt
  rw [cmdWord, BitVec.toNat_ofNat, Nat.mod_eq_of_lt (by omega)]

@[simp] theorem cmdOp_cmdWord (op : BitVec 4) (a b : Half) : cmdOp (cmdWord op a b) = op := by
  have := a.isLt
  have := b.isLt
  have := op.isLt
  apply BitVec.eq_of_toNat_eq
  rw [cmdOp, BitVec.extractLsb'_toNat, cmdWord_toNat, Nat.shiftRight_eq_div_pow]
  omega

@[simp] theorem cmdA_cmdWord (op : BitVec 4) (a b : Half) : cmdA (cmdWord op a b) = a := by
  have := a.isLt
  have := b.isLt
  have := op.isLt
  apply BitVec.eq_of_toNat_eq
  rw [cmdA, BitVec.extractLsb'_toNat, cmdWord_toNat, Nat.shiftRight_eq_div_pow]
  omega

@[simp] theorem cmdB_cmdWord (op : BitVec 4) (a b : Half) : cmdB (cmdWord op a b) = b := by
  have := a.isLt
  have := b.isLt
  have := op.isLt
  apply BitVec.eq_of_toNat_eq
  rw [cmdB, BitVec.extractLsb'_toNat, cmdWord_toNat, Nat.shiftRight_eq_div_pow]
  omega

end Sys2Proof
end

