-- ==== Sys2Proof/Laws/Memory.lean ====
section
/-!
SUPPORT. The laws of the register file: reading after a write, what a write leaves alone, the canonical form, and that
canonical memories that read the same are the same.
-/

namespace Sys2Proof.Machine

/-! ## Bytes -/

theorem highByte_toNat (v : Half) : (highByte v).toNat = v.toNat / 256 := by
  simp only [highByte, BitVec.extractLsb'_toNat, Nat.shiftRight_eq_div_pow]
  have := v.isLt
  omega

theorem lowByte_toNat (v : Half) : (lowByte v).toNat = v.toNat % 256 := by
  simp [lowByte, BitVec.extractLsb'_toNat]

theorem ofBytes_toNat (h l : Byte) : (ofBytes h l).toNat = h.toNat * 256 + l.toNat := by
  have := h.isLt
  have := l.isLt
  rw [ofBytes, BitVec.toNat_ofNat]
  omega

theorem ofBytes_high_low (v : Half) : ofBytes (highByte v) (lowByte v) = v := by
  apply BitVec.eq_of_toNat_eq
  rw [ofBytes_toNat, highByte_toNat, lowByte_toNat]
  omega

theorem highByte_ofBytes (h l : Byte) : highByte (ofBytes h l) = h := by
  apply BitVec.eq_of_toNat_eq
  have := l.isLt
  rw [highByte_toNat, ofBytes_toNat]
  omega

theorem lowByte_ofBytes (h l : Byte) : lowByte (ofBytes h l) = l := by
  apply BitVec.eq_of_toNat_eq
  have := l.isLt
  rw [lowByte_toNat, ofBytes_toNat]
  omega

/-! ## One cell -/

@[simp] theorem memGet_nil (a : Nat) : memGet [] a = 0 := rfl

/-- Below the least listed address every byte reads 0. -/
theorem memGet_below {lo a : Nat} {m : Memory} (hm : memWfFrom lo m = true) (ha : a < lo) : memGet m a = 0 := by
  induction m generalizing lo with
  | nil => rfl
  | cons cell m ih =>
    obtain ⟨k, v⟩ := cell
    simp only [memWfFrom, Bool.and_eq_true, decide_eq_true_eq] at hm
    rw [memGet, if_neg (by omega)]
    exact ih hm.2 (by omega)

theorem memGet_memSet_same {lo a : Nat} {m : Memory} (b : Byte) (hm : memWfFrom lo m = true) :
    memGet (memSet m a b) a = b := by
  induction m generalizing lo with
  | nil =>
    rw [memSet]
    split
    · simp_all
    · simp [memGet]
  | cons cell m ih =>
    obtain ⟨k, v⟩ := cell
    simp only [memWfFrom, Bool.and_eq_true, decide_eq_true_eq] at hm
    have below : ∀ c, c < k + 1 → memGet m c = 0 := fun c hc => memGet_below hm.2 hc
    rw [memSet]
    split
    · rename_i hlt
      split
      · rw [memGet, if_neg (by omega), below a (by omega)]; simp_all
      · simp [memGet]
    · split
      · rename_i heq
        split
        · rw [below a (by omega)]; simp_all
        · simp [memGet]
      · rename_i hne
        rw [memGet, if_neg (by omega)]
        exact ih hm.2

theorem memGet_memSet_ne {a c : Nat} (m : Memory) (b : Byte) (hc : c ≠ a) : memGet (memSet m a b) c = memGet m c := by
  have hca : ¬ a = c := fun h => hc h.symm
  induction m with
  | nil => rw [memSet]; split <;> simp [memGet, hca]
  | cons cell m ih =>
    obtain ⟨k, v⟩ := cell
    rw [memSet]
    split
    · split <;> simp [memGet, hca]
    · split
      · rename_i heq
        split <;> simp [memGet, hca, ← heq]
      · simp [memGet, ih]

theorem memSet_wfFrom {lo a : Nat} {m : Memory} (b : Byte) (hm : memWfFrom lo m = true) (ha : lo ≤ a) :
    memWfFrom lo (memSet m a b) = true := by
  induction m generalizing lo with
  | nil =>
    rw [memSet]
    split <;> simp_all [memWfFrom]
  | cons cell m ih =>
    obtain ⟨k, v⟩ := cell
    have hm' := hm
    simp only [memWfFrom, Bool.and_eq_true, decide_eq_true_eq] at hm'
    obtain ⟨⟨hk, hv⟩, hrest⟩ := hm'
    have up : ∀ {l : Nat}, l ≤ k + 1 → memWfFrom l m = true := by
      intro l hl
      cases m with
      | nil => rfl
      | cons c2 m2 =>
        simp only [memWfFrom, Bool.and_eq_true, decide_eq_true_eq] at hrest ⊢
        exact ⟨⟨by omega, hrest.1.2⟩, hrest.2⟩
    rw [memSet]
    split
    · split
      · exact hm
      · simp only [memWfFrom, Bool.and_eq_true, decide_eq_true_eq, bne_iff_ne]
        exact ⟨⟨ha, by assumption⟩, ⟨by omega, by simpa using hv⟩, hrest⟩
    · split
      · rename_i heq
        split
        · exact up (by omega)
        · simp only [memWfFrom, Bool.and_eq_true, decide_eq_true_eq, bne_iff_ne]
          exact ⟨⟨ha, by assumption⟩, by rw [heq]; exact hrest⟩
      · simp only [memWfFrom, Bool.and_eq_true, decide_eq_true_eq]
        exact ⟨⟨hk, hv⟩, ih hrest (by omega)⟩

theorem memSet_wf {m : Memory} (a : Nat) (b : Byte) (hm : Memory.wf m = true) : Memory.wf (memSet m a b) = true :=
  memSet_wfFrom b hm (Nat.zero_le a)

theorem memWithin_cons {cap k : Nat} {v : Byte} {m : Memory} :
    memWithin cap ((k, v) :: m) = true ↔ k < 2 * cap ∧ memWithin cap m = true := by
  simp only [memWithin, List.all_cons, Bool.and_eq_true, decide_eq_true_eq]

theorem memSet_within {cap a : Nat} {m : Memory} (b : Byte) (hm : memWithin cap m = true) (ha : a < 2 * cap) :
    memWithin cap (memSet m a b) = true := by
  induction m with
  | nil =>
    rw [memSet]
    split
    · exact hm
    · exact memWithin_cons.mpr ⟨ha, hm⟩
  | cons cell m ih =>
    obtain ⟨k, v⟩ := cell
    have hm' := memWithin_cons.mp hm
    rw [memSet]
    split
    · split
      · exact hm
      · exact memWithin_cons.mpr ⟨ha, hm⟩
    · split
      · split
        · exact hm'.2
        · exact memWithin_cons.mpr ⟨ha, hm'.2⟩
      · exact memWithin_cons.mpr ⟨hm'.1, ih hm'.2⟩

/-- Canonical memories that read the same at every address are the same. -/
theorem mem_ext_from {lo : Nat} {m n : Memory} (hm : memWfFrom lo m = true) (hn : memWfFrom lo n = true)
    (h : ∀ a, memGet m a = memGet n a) : m = n := by
  induction m generalizing lo n with
  | nil =>
    cases n with
    | nil => rfl
    | cons cell n =>
      obtain ⟨k, v⟩ := cell
      simp only [memWfFrom, Bool.and_eq_true, bne_iff_ne] at hn
      have := h k
      simp [memGet] at this
      exact absurd this.symm hn.1.2
  | cons cell m ih =>
    obtain ⟨k, v⟩ := cell
    cases n with
    | nil =>
      simp only [memWfFrom, Bool.and_eq_true, bne_iff_ne] at hm
      have := h k
      simp [memGet] at this
      exact absurd this hm.1.2
    | cons cell2 n =>
      obtain ⟨k2, v2⟩ := cell2
      simp only [memWfFrom, Bool.and_eq_true, decide_eq_true_eq, bne_iff_ne] at hm hn
      have bm : ∀ c, c < k + 1 → memGet m c = 0 := fun c hc => memGet_below hm.2 hc
      have bn : ∀ c, c < k2 + 1 → memGet n c = 0 := fun c hc => memGet_below hn.2 hc
      have hk : k = k2 := by
        rcases Nat.lt_trichotomy k k2 with hlt | heq | hgt
        · have := h k
          rw [memGet, memGet, if_pos rfl, if_neg (by omega), bn k (by omega)] at this
          exact absurd this hm.1.2
        · exact heq
        · have := h k2
          rw [memGet, memGet, if_neg (by omega), if_pos rfl, bm k2 (by omega)] at this
          exact absurd this.symm hn.1.2
      subst hk
      have hv : v = v2 := by simpa [memGet] using h k
      subst hv
      have : m = n := by
        refine ih hm.2 hn.2 fun a => ?_
        by_cases ha : k = a
        · subst ha; rw [bm k (by omega), bn k (by omega)]
        · simpa [memGet, ha] using h a
      rw [this]

theorem mem_ext {m n : Memory} (hm : Memory.wf m = true) (hn : Memory.wf n = true)
    (h : ∀ a, memGet m a = memGet n a) : m = n := mem_ext_from hm hn h

/-! ## One register -/

/-- Every memory reads a byte as the half of its register. -/
theorem memGet_eq_readReg (m : Memory) (a : Nat) :
    memGet m a = if a % 2 = 0 then highByte (readReg m (a / 2)) else lowByte (readReg m (a / 2)) := by
  split
  · have : highCell (a / 2) = a := by simp only [highCell]; omega
    rw [readReg, highByte_ofBytes, this]
  · have : lowCell (a / 2) = a := by simp only [lowCell]; omega
    rw [readReg, lowByte_ofBytes, this]

theorem writeReg_wf {m : Memory} (i : Nat) (v : Half) (hm : Memory.wf m = true) : Memory.wf (writeReg m i v) = true :=
  memSet_wf _ _ (memSet_wf _ _ hm)

theorem writeReg_within {cap i : Nat} {m : Memory} (v : Half) (hm : memWithin cap m = true) (hi : i < cap) :
    memWithin cap (writeReg m i v) = true :=
  memSet_within _ (memSet_within _ hm (by simp only [highCell]; omega)) (by simp only [lowCell]; omega)

theorem readReg_writeReg_same {m : Memory} (i : Nat) (v : Half) (hm : Memory.wf m = true) :
    readReg (writeReg m i v) i = v := by
  have h1 : memGet (writeReg m i v) (lowCell i) = lowByte v := memGet_memSet_same _ (memSet_wf _ _ hm)
  have h2 : memGet (writeReg m i v) (highCell i) = highByte v := by
    rw [writeReg, memGet_memSet_ne _ _ (by simp only [highCell, lowCell]; omega)]
    exact memGet_memSet_same _ hm
  rw [readReg, h1, h2, ofBytes_high_low]

/-- A register write leaves every byte of the other registers alone. -/
theorem memGet_writeReg_ne {i a : Nat} (m : Memory) (v : Half) (ha : a < 2 * i ∨ 2 * i + 2 ≤ a) :
    memGet (writeReg m i v) a = memGet m a := by
  rw [writeReg, memGet_memSet_ne _ _ (by simp only [lowCell]; omega),
    memGet_memSet_ne _ _ (by simp only [highCell]; omega)]

theorem readReg_writeReg_ne {i j : Nat} (m : Memory) (v : Half) (hj : j ≠ i) :
    readReg (writeReg m i v) j = readReg m j := by
  rw [readReg, readReg, memGet_writeReg_ne _ _ (by simp only [highCell]; omega),
    memGet_writeReg_ne _ _ (by simp only [lowCell]; omega)]

/-! ## Several registers -/

@[simp] theorem memWrite_nil (m : Memory) (a : Nat) : memWrite m a [] = m := rfl

theorem memWrite_wf {m : Memory} (a : Nat) (vs : List Half) (hm : Memory.wf m = true) :
    Memory.wf (memWrite m a vs) = true := by
  induction vs generalizing m a with
  | nil => exact hm
  | cons v vs ih => exact ih (a + 1) (writeReg_wf a v hm)

theorem memWrite_within {cap a : Nat} {m : Memory} {vs : List Half} (hm : memWithin cap m = true)
    (h : a + vs.length ≤ cap) : memWithin cap (memWrite m a vs) = true := by
  induction vs generalizing m a with
  | nil => exact hm
  | cons v vs ih =>
    simp only [List.length_cons] at h
    exact ih (writeReg_within v hm (by omega)) (by omega)

/-- A write of registers leaves every byte outside them alone. -/
theorem memGet_memWrite_outside {a c : Nat} (m : Memory) (vs : List Half)
    (hc : c < 2 * a ∨ 2 * (a + vs.length) ≤ c) : memGet (memWrite m a vs) c = memGet m c := by
  induction vs generalizing m a with
  | nil => rfl
  | cons v vs ih =>
    simp only [List.length_cons] at hc
    rw [memWrite, ih _ (by omega), memGet_writeReg_ne _ _ (by omega)]

theorem readReg_memWrite_outside {a i : Nat} (m : Memory) (vs : List Half) (hi : i < a ∨ a + vs.length ≤ i) :
    readReg (memWrite m a vs) i = readReg m i := by
  rw [readReg, readReg, memGet_memWrite_outside _ _ (by simp only [highCell]; omega),
    memGet_memWrite_outside _ _ (by simp only [lowCell]; omega)]

theorem readReg_memWrite_inside {a k : Nat} {m : Memory} {vs : List Half} (hm : Memory.wf m = true)
    (hk : k < vs.length) : readReg (memWrite m a vs) (a + k) = vs[k] := by
  induction vs generalizing m a k with
  | nil => simp at hk
  | cons v vs ih =>
    rw [memWrite]
    cases k with
    | zero => rw [readReg_memWrite_outside _ _ (by omega)]; exact readReg_writeReg_same a v hm
    | succ k =>
      have := ih (a := a + 1) (writeReg_wf a v hm) (by simpa using hk)
      rw [show a + (k + 1) = a + 1 + k by omega, this]; rfl

@[simp] theorem memRead_length (m : Memory) (a n : Nat) : (memRead m a n).length = n := by simp [memRead]

theorem memRead_getElem (m : Memory) (a n k : Nat) (hk : k < (memRead m a n).length) :
    (memRead m a n)[k] = readReg m (a + k) := by simp [memRead]

end Sys2Proof.Machine
end

