-- ==== Sys2Proof/Laws/State.lean ====
section
/-!
SUPPORT. One lemma for each field of the state under each named update, true by rfl.
-/

namespace Sys2Proof.Machine

variable (s : State)

/-! ## respond -/

@[simp] theorem State.respond_cfg (status : Status) (data : ResponseData) : (s.respond status data).cfg = s.cfg := rfl
@[simp] theorem State.respond_cap (status : Status) (data : ResponseData) : (s.respond status data).cap = s.cap := rfl
@[simp] theorem State.respond_reg (status : Status) (data : ResponseData) : (s.respond status data).reg = s.reg := rfl
@[simp] theorem State.respond_msg (status : Status) (data : ResponseData) : (s.respond status data).msg = s.msg := rfl
@[simp] theorem State.respond_ticks (status : Status) (data : ResponseData) :
    (s.respond status data).ticks = s.ticks := rfl
@[simp] theorem State.respond_lat (status : Status) (data : ResponseData) : (s.respond status data).lat = s.lat := rfl
@[simp] theorem State.respond_lon (status : Status) (data : ResponseData) : (s.respond status data).lon = s.lon := rfl
@[simp] theorem State.respond_freeIndex (status : Status) (data : ResponseData) :
    (s.respond status data).freeIndex = s.freeIndex := rfl
@[simp] theorem State.respond_ctx (status : Status) (data : ResponseData) : (s.respond status data).ctx = s.ctx := rfl
@[simp] theorem State.respond_draws (status : Status) (data : ResponseData) :
    (s.respond status data).draws = s.draws := rfl
@[simp] theorem State.respond_pending (status : Status) (data : ResponseData) :
    (s.respond status data).pending = s.pending := rfl
@[simp] theorem State.respond_turns (status : Status) (data : ResponseData) :
    (s.respond status data).turns = s.turns := rfl
@[simp] theorem State.respond_responses (status : Status) (data : ResponseData) :
    (s.respond status data).responses = s.responses ++ [⟨s.ctx, status, data⟩] := rfl

/-! ## writeWords -/

@[simp] theorem State.writeWords_cfg (a : Nat) (vs : List Half) : (s.writeWords a vs).cfg = s.cfg := rfl
@[simp] theorem State.writeWords_cap (a : Nat) (vs : List Half) : (s.writeWords a vs).cap = s.cap := rfl
@[simp] theorem State.writeWords_reg (a : Nat) (vs : List Half) :
    (s.writeWords a vs).reg = memWrite s.reg a (vs.map (registerValue s.cfg)) := rfl
@[simp] theorem State.writeWords_msg (a : Nat) (vs : List Half) : (s.writeWords a vs).msg = s.msg := rfl
@[simp] theorem State.writeWords_ticks (a : Nat) (vs : List Half) : (s.writeWords a vs).ticks = s.ticks := rfl
@[simp] theorem State.writeWords_lat (a : Nat) (vs : List Half) : (s.writeWords a vs).lat = s.lat := rfl
@[simp] theorem State.writeWords_lon (a : Nat) (vs : List Half) : (s.writeWords a vs).lon = s.lon := rfl
@[simp] theorem State.writeWords_freeIndex (a : Nat) (vs : List Half) :
    (s.writeWords a vs).freeIndex = s.freeIndex := rfl
@[simp] theorem State.writeWords_ctx (a : Nat) (vs : List Half) : (s.writeWords a vs).ctx = s.ctx := rfl
@[simp] theorem State.writeWords_draws (a : Nat) (vs : List Half) : (s.writeWords a vs).draws = s.draws := rfl
@[simp] theorem State.writeWords_pending (a : Nat) (vs : List Half) : (s.writeWords a vs).pending = s.pending := rfl
@[simp] theorem State.writeWords_turns (a : Nat) (vs : List Half) : (s.writeWords a vs).turns = s.turns := rfl
@[simp] theorem State.writeWords_responses (a : Nat) (vs : List Half) :
    (s.writeWords a vs).responses = s.responses := rfl

/-! ## countEncode -/

@[simp] theorem State.countEncode_cfg (inc : Nat) : (s.countEncode inc).cfg = s.cfg := rfl
@[simp] theorem State.countEncode_cap (inc : Nat) : (s.countEncode inc).cap = s.cap := rfl
@[simp] theorem State.countEncode_reg (inc : Nat) : (s.countEncode inc).reg = s.reg := rfl
@[simp] theorem State.countEncode_msg (inc : Nat) : (s.countEncode inc).msg = addMsg s.cfg.msgW s.msg inc := rfl
@[simp] theorem State.countEncode_ticks (inc : Nat) : (s.countEncode inc).ticks = s.ticks + 1 := rfl
@[simp] theorem State.countEncode_lat (inc : Nat) : (s.countEncode inc).lat = s.lat := rfl
@[simp] theorem State.countEncode_lon (inc : Nat) : (s.countEncode inc).lon = s.lon := rfl
@[simp] theorem State.countEncode_freeIndex (inc : Nat) : (s.countEncode inc).freeIndex = s.freeIndex := rfl
@[simp] theorem State.countEncode_ctx (inc : Nat) : (s.countEncode inc).ctx = s.ctx := rfl
@[simp] theorem State.countEncode_draws (inc : Nat) : (s.countEncode inc).draws = s.draws := rfl
@[simp] theorem State.countEncode_pending (inc : Nat) : (s.countEncode inc).pending = s.pending := rfl
@[simp] theorem State.countEncode_turns (inc : Nat) : (s.countEncode inc).turns = s.turns := rfl
@[simp] theorem State.countEncode_responses (inc : Nat) : (s.countEncode inc).responses = s.responses := rfl

/-! ## advance -/

@[simp] theorem State.advance_cfg (dlat dlon : F64) : (s.advance dlat dlon).cfg = s.cfg := rfl
@[simp] theorem State.advance_cap (dlat dlon : F64) : (s.advance dlat dlon).cap = s.cap := rfl
@[simp] theorem State.advance_reg (dlat dlon : F64) : (s.advance dlat dlon).reg = s.reg := rfl
@[simp] theorem State.advance_msg (dlat dlon : F64) : (s.advance dlat dlon).msg = s.msg := rfl
@[simp] theorem State.advance_ticks (dlat dlon : F64) : (s.advance dlat dlon).ticks = s.ticks := rfl
@[simp] theorem State.advance_lat (dlat dlon : F64) :
    (s.advance dlat dlon).lat = fAdd (fNaN (Config.freeNaN s.freeIndex)) s.lat dlat := rfl
@[simp] theorem State.advance_lon (dlat dlon : F64) :
    (s.advance dlat dlon).lon = fAdd (fNaN (Config.freeNaN (s.freeIndex + 1))) s.lon dlon := rfl
@[simp] theorem State.advance_freeIndex (dlat dlon : F64) : (s.advance dlat dlon).freeIndex = s.freeIndex + 2 := rfl
@[simp] theorem State.advance_ctx (dlat dlon : F64) : (s.advance dlat dlon).ctx = s.ctx := rfl
@[simp] theorem State.advance_draws (dlat dlon : F64) : (s.advance dlat dlon).draws = s.draws := rfl
@[simp] theorem State.advance_pending (dlat dlon : F64) : (s.advance dlat dlon).pending = s.pending := rfl
@[simp] theorem State.advance_turns (dlat dlon : F64) : (s.advance dlat dlon).turns = s.turns := rfl
@[simp] theorem State.advance_responses (dlat dlon : F64) : (s.advance dlat dlon).responses = s.responses := rfl

/-! ## accept -/

@[simp] theorem State.accept_cfg (r : Request) (ps : List Request) (ts : List Context) :
    (s.accept r ps ts).cfg = s.cfg := rfl
@[simp] theorem State.accept_cap (r : Request) (ps : List Request) (ts : List Context) :
    (s.accept r ps ts).cap = s.cap := rfl
@[simp] theorem State.accept_reg (r : Request) (ps : List Request) (ts : List Context) :
    (s.accept r ps ts).reg = s.reg := rfl
@[simp] theorem State.accept_msg (r : Request) (ps : List Request) (ts : List Context) :
    (s.accept r ps ts).msg = s.msg := rfl
@[simp] theorem State.accept_ticks (r : Request) (ps : List Request) (ts : List Context) :
    (s.accept r ps ts).ticks = s.ticks := rfl
@[simp] theorem State.accept_lat (r : Request) (ps : List Request) (ts : List Context) :
    (s.accept r ps ts).lat = s.lat := rfl
@[simp] theorem State.accept_lon (r : Request) (ps : List Request) (ts : List Context) :
    (s.accept r ps ts).lon = s.lon := rfl
@[simp] theorem State.accept_freeIndex (r : Request) (ps : List Request) (ts : List Context) :
    (s.accept r ps ts).freeIndex = s.freeIndex := rfl
@[simp] theorem State.accept_ctx (r : Request) (ps : List Request) (ts : List Context) :
    (s.accept r ps ts).ctx = r.ctx := rfl
@[simp] theorem State.accept_draws (r : Request) (ps : List Request) (ts : List Context) :
    (s.accept r ps ts).draws = r.draws := rfl
@[simp] theorem State.accept_pending (r : Request) (ps : List Request) (ts : List Context) :
    (s.accept r ps ts).pending = ps := rfl
@[simp] theorem State.accept_turns (r : Request) (ps : List Request) (ts : List Context) :
    (s.accept r ps ts).turns = ts := rfl
@[simp] theorem State.accept_responses (r : Request) (ps : List Request) (ts : List Context) :
    (s.accept r ps ts).responses = s.responses := rfl

/-! ## placeRequest -/

@[simp] theorem State.placeRequest_cfg (r : Request) : (s.placeRequest r).cfg = s.cfg := rfl
@[simp] theorem State.placeRequest_cap (r : Request) : (s.placeRequest r).cap = s.cap := rfl
@[simp] theorem State.placeRequest_reg (r : Request) : (s.placeRequest r).reg = s.reg := rfl
@[simp] theorem State.placeRequest_msg (r : Request) : (s.placeRequest r).msg = s.msg := rfl
@[simp] theorem State.placeRequest_ticks (r : Request) : (s.placeRequest r).ticks = s.ticks := rfl
@[simp] theorem State.placeRequest_lat (r : Request) : (s.placeRequest r).lat = s.lat := rfl
@[simp] theorem State.placeRequest_lon (r : Request) : (s.placeRequest r).lon = s.lon := rfl
@[simp] theorem State.placeRequest_freeIndex (r : Request) : (s.placeRequest r).freeIndex = s.freeIndex := rfl
@[simp] theorem State.placeRequest_ctx (r : Request) : (s.placeRequest r).ctx = s.ctx := rfl
@[simp] theorem State.placeRequest_draws (r : Request) : (s.placeRequest r).draws = s.draws := rfl
@[simp] theorem State.placeRequest_pending (r : Request) : (s.placeRequest r).pending = r :: s.pending := rfl
@[simp] theorem State.placeRequest_turns (r : Request) : (s.placeRequest r).turns = r.ctx :: s.turns := rfl
@[simp] theorem State.placeRequest_responses (r : Request) : (s.placeRequest r).responses = s.responses := rfl

end Sys2Proof.Machine
end

