-- ==== Sys2Proof/Laws/Ops.lean ====
section
/-!
SUPPORT. For each shared operation, one lemma that says everything it can do.
-/

namespace Sys2Proof.Machine

/-- A transaction answers a next state exactly where nothing refuses it, and that state is its body's with its response. -/
theorem transact_next {mutating drawsOk : Bool} {body : State → Answer} {s t : State} :
    transact mutating drawsOk body s = .next t ↔
      configValid s.cfg = true ∧ (mutating = true → s.ctx = .tick) ∧ drawsOk = true ∧
        t = (body s).state.respond (body s).status (body s).data := by
  unfold transact fromTickContext
  cases hc : configValid s.cfg <;> by_cases hx : s.ctx = .tick <;> cases mutating <;> cases drawsOk <;>
    simp [hx, eq_comm]

/-- A transaction is refused for exactly one of three reasons, in the order of `transact` (60_exceptions.md R203, R211). -/
theorem transact_refused {mutating drawsOk : Bool} {body : State → Answer} {s : State} {r : Refusal} :
    transact mutating drawsOk body s = .refused r ↔
      (configValid s.cfg = false ∧ r = .badConfiguration) ∨
      (configValid s.cfg = true ∧ (mutating = true ∧ s.ctx ≠ .tick) ∧ r = .mutatingFromReadContext) ∨
      (configValid s.cfg = true ∧ ¬(mutating = true ∧ s.ctx ≠ .tick) ∧ drawsOk = false ∧ r = .drawOutOfSet) := by
  unfold transact fromTickContext
  cases hc : configValid s.cfg <;> by_cases hx : s.ctx = .tick <;> cases mutating <;> cases drawsOk <;>
    simp [hx, eq_comm]

/-- An illegal word is answered with ILLEGAL_COMMAND and nothing else, wherever the configuration is admitted. -/
theorem answerIllegal_next {s t : State} :
    answerIllegal s = .next t ↔ configValid s.cfg = true ∧ t = s.respond .illegalCommand .none := by
  simp [answerIllegal, transact_next]

/-! ## Widths -/

/-- What a place takes has its width. -/
theorem fitTo_lt (p : Place) (width v : Nat) : fitTo p width v < 2 ^ width := by
  unfold fitTo
  split
  · assumption
  · exact Nat.mod_lt _ (Nat.two_pow_pos _)

/-- A place takes a value that fits as it is. -/
theorem fitTo_of_lt {p : Place} {width v : Nat} (h : v < 2 ^ width) : fitTo p width v = v := if_pos h

/-- What a place takes of a 16-bit value has 16 bits. -/
theorem fitTo_toNat_lt (p : Place) (width : Nat) (v : Half) : fitTo p width v.toNat < 2 ^ 16 := by
  unfold fitTo
  split
  · exact v.isLt
  · exact lt_of_le_of_lt (Nat.mod_le _ _) (Config.freeFit p width v.toNat).isLt

/-- A place of at least 16 bits takes every 16-bit value as it is. -/
theorem fitTo_of_wide {p : Place} {width : Nat} (h : 16 ≤ width) (v : Half) : fitTo p width v.toNat = v.toNat :=
  fitTo_of_lt (lt_of_lt_of_le v.isLt (Nat.pow_le_pow_right (by decide) h))

theorem registerValue_toNat (c : Config) (v : Half) :
    (registerValue c v).toNat = fitTo .register c.regW v.toNat := by
  rw [registerValue, BitVec.toNat_ofNat, Nat.mod_eq_of_lt (fitTo_toNat_lt _ _ v)]

/-- A register's value has its width. -/
theorem registerValue_lt (c : Config) (v : Half) : (registerValue c v).toNat < 2 ^ c.regW := by
  rw [registerValue_toNat]
  exact fitTo_lt _ _ _

/-- A register takes a value that fits as it is. -/
theorem registerValue_of_lt {c : Config} {v : Half} (h : v.toNat < 2 ^ c.regW) : registerValue c v = v :=
  BitVec.eq_of_toNat_eq (by rw [registerValue_toNat, fitTo_of_lt h])

/-- A register of at least 16 bits takes every value as it is. -/
theorem registerValue_of_wide {c : Config} (h : 16 ≤ c.regW) (v : Half) : registerValue c v = v :=
  registerValue_of_lt (lt_of_lt_of_le v.isLt (Nat.pow_le_pow_right (by decide) h))

/-- Taking a value twice is taking it once. -/
@[simp] theorem registerValue_registerValue (c : Config) (v : Half) :
    registerValue c (registerValue c v) = registerValue c v := registerValue_of_lt (registerValue_lt c v)

/-- An address that fits stands for itself. -/
theorem addressOf_of_lt {c : Config} {v : Half} (h : v.toNat < 2 ^ c.addrW) : addressOf c v = v.toNat := fitTo_of_lt h

/-- A count that fits stands for itself. -/
theorem countOf_of_lt {c : Config} {v : Half} (h : v.toNat < 2 ^ c.cntW) : countOf c v = v.toNat := fitTo_of_lt h

/-- What stands for a count is never above its operand. -/
theorem countOf_le (c : Config) (v : Half) : countOf c v ≤ v.toNat := by
  by_cases h : v.toNat < 2 ^ c.cntW
  · exact (countOf_of_lt h).le
  · exact (lt_of_lt_of_le (fitTo_lt _ _ _) (Nat.not_lt.mp h)).le

/-- A counter of at most 16 bits stands in its frame field as it is. -/
theorem counterField_of_lt {msg : Nat} (h : msg < 65536) : counterField msg = BitVec.ofNat 16 msg := by
  rw [counterField, fitTo_of_lt h]

/-- The message counter stays below 2^MSG_W. -/
theorem addMsg_lt (width msg inc : Nat) : addMsg width msg inc < 2 ^ width := Nat.mod_lt _ (Nat.two_pow_pos _)

/-! ## Stores and frames -/

/-- A store of whole registers does all of it or none of it. -/
theorem storeWords_cases (s : State) (a : Nat) (vs : List Half) :
    (a + vs.length ≤ s.cap ∧ storeWords s a vs = (s.writeWords a vs, .ok)) ∨
    (s.cap < a + vs.length ∧ storeWords s a vs = (s, .outOfRange)) := by
  by_cases h : a + vs.length ≤ s.cap
  · exact .inl ⟨h, by simp [storeWords, fits, h]⟩
  · exact .inr ⟨by omega, by simp [storeWords, fits, h]⟩

/-- A write into a frame keeps its length. -/
@[simp] theorem putBytes_length (frame : List Byte) (off : Nat) (bs : List Byte) :
    (putBytes frame off bs).length = frame.length := by
  induction bs generalizing frame off with
  | nil => rfl
  | cons b bs ih => simp [putBytes, ih]

/-- Pairing halves the length. -/
theorem pairWords_length : ∀ frame : List Byte, (pairWords frame).length = frame.length / 2
  | [] => rfl
  | [_] => by simp [pairWords]
  | _ :: _ :: rest => by
    simp only [pairWords, List.length_cons, pairWords_length rest]
    omega

@[simp] theorem floatBytes_length (o : FloatOrder) (x : F64) : (floatBytes o x).length = 8 := by
  cases o <;> simp [floatBytes, be64]

/-- The oldest request of a context splits the pending ones: nothing of that context stands before it. -/
theorem takeOf_some {c : Context} {ps rest : List Request} {r : Request} :
    takeOf c ps = some (r, rest) ↔
      ∃ before after, ps = before ++ r :: after ∧ rest = before ++ after ∧ r.ctx = c ∧ ∀ q ∈ before, q.ctx ≠ c := by
  induction ps generalizing rest with
  | nil => simp [takeOf]
  | cons p ps ih =>
    rw [takeOf]
    by_cases hp : p.ctx = c
    · simp only [hp, if_true, Option.some.injEq, Prod.mk.injEq]
      constructor
      · rintro ⟨rfl, rfl⟩
        exact ⟨[], ps, by simp, by simp, hp, by simp⟩
      · rintro ⟨before, after, h1, h2, h3, h4⟩
        cases before with
        | nil => simp at h1 h2; exact ⟨h1.1, by rw [h1.2, h2]⟩
        | cons b before =>
          simp only [List.cons_append, List.cons.injEq] at h1
          exact absurd (h1.1 ▸ hp) (h4 b (by simp))
    · simp only [hp, if_false]
      cases htake : takeOf c ps with
      | none =>
        simp only [reduceCtorEq, false_iff]
        rintro ⟨before, after, h1, h2, h3, h4⟩
        cases before with
        | nil =>
          simp only [List.nil_append, List.cons.injEq] at h1
          exact hp (h1.1 ▸ h3)
        | cons b before =>
          simp only [List.cons_append, List.cons.injEq] at h1
          have : takeOf c ps = some (r, before ++ after) :=
            ih.mpr ⟨before, after, h1.2, rfl, h3, fun q hq => h4 q (by simp [hq])⟩
          rw [htake] at this
          cases this
      | some found =>
        obtain ⟨q, others⟩ := found
        simp only [Option.some.injEq, Prod.mk.injEq]
        constructor
        · rintro ⟨rfl, rfl⟩
          obtain ⟨before, after, h1, h2, h3, h4⟩ := ih.mp htake
          refine ⟨p :: before, after, by simp [h1], by simp [h2], h3, ?_⟩
          intro q' hq'
          cases List.mem_cons.mp hq' with
          | inl h => rw [h]; exact hp
          | inr h => exact h4 q' h
        · rintro ⟨before, after, h1, h2, h3, h4⟩
          cases before with
          | nil =>
            simp only [List.nil_append, List.cons.injEq] at h1
            exact absurd (h1.1 ▸ h3) hp
          | cons b before =>
            simp only [List.cons_append, List.cons.injEq] at h1
            have : takeOf c ps = some (r, before ++ after) :=
              ih.mpr ⟨before, after, h1.2, rfl, h3, fun q hq => h4 q (by simp [hq])⟩
            rw [htake] at this
            cases this
            exact ⟨rfl, by rw [h2, h1.1]; rfl⟩

/-- No pending request of a context: nothing is taken. -/
theorem takeOf_none {c : Context} {ps : List Request} : takeOf c ps = none ↔ ∀ q ∈ ps, q.ctx ≠ c := by
  induction ps with
  | nil => simp [takeOf]
  | cons p ps ih =>
    rw [takeOf]
    by_cases hp : p.ctx = c
    · simp [hp]
    · cases htake : takeOf c ps with
      | none => simpa [hp] using ih.mp htake
      | some found =>
        simp only [hp, if_false, List.mem_cons, forall_eq_or_imp, reduceCtorEq, false_iff, not_and]
        intro _ h
        rw [ih.mpr h] at htake
        cases htake

/-- A fetch that finds nothing changes nothing but the turns. -/
theorem fetch_idle {s t : State} (h : fetch s = .idle t) : ∃ turns, t = { s with turns := turns } := by
  unfold fetch at h
  split at h
  · split at h
    · cases h; exact ⟨s.turns, rfl⟩
    · cases h
  · split at h
    · cases h; exact ⟨_, rfl⟩
    · cases h

/-- A fetch that finds a request takes exactly that one out of the pending ones. -/
theorem fetch_request {s t : State} {r : Request} (h : fetch s = .request r t) :
    ∃ before after turns, s.pending = before ++ r :: after ∧ t = s.accept r (before ++ after) turns ∧
      ∀ q ∈ before, q.ctx ≠ r.ctx := by
  unfold fetch at h
  split at h
  · split at h
    · cases h
    · rename_i rest hp
      cases h
      exact ⟨[], _, [], by simpa using hp, by simp, by simp⟩
  · split at h
    · cases h
    · rename_i q rest htake
      cases h
      obtain ⟨before, after, h1, h2, h3, h4⟩ := takeOf_some.mp htake
      exact ⟨before, after, _, h1, by rw [h2], by rw [h3]; exact h4⟩

/-- A step does one of four things: it idles, runs the decoded instruction, answers an illegal word, or is refused for a
payload of the wrong length. -/
theorem step_cases (s : State) :
    (∃ t, fetch s = .idle t ∧ step s = .next t) ∨
    (∃ r t i, fetch s = .request r t ∧ decode r.word r.payload = .instr i ∧ step s = exec i t) ∨
    (∃ r t why, fetch s = .request r t ∧ decode r.word r.payload = .illegal why ∧ step s = answerIllegal t) ∨
    (∃ r t, fetch s = .request r t ∧ decode r.word r.payload = .payloadMismatch ∧
      step s = .refused .payloadLength) := by
  unfold step
  cases hf : fetch s with
  | idle t => exact .inl ⟨t, rfl, rfl⟩
  | request r t =>
    cases hd : decode r.word r.payload with
    | instr i => exact .inr (.inl ⟨r, t, i, rfl, hd, by simp [serve, hd]⟩)
    | illegal why => exact .inr (.inr (.inl ⟨r, t, why, rfl, hd, by simp [serve, hd]⟩))
    | payloadMismatch => exact .inr (.inr (.inr ⟨r, t, rfl, hd, by simp [serve, hd]⟩))

end Sys2Proof.Machine
end

