-- ==== Sys2Proof/Laws/PerInstr.lean ====
section
/-!
SUPPORT. Statements made for every instruction, one lemma per constructor.
-/

namespace Sys2Proof.Laws

/-- The word of an instruction lies in its row of spec/opcode_table.json. -/
def RowMatch.Statement (i : Instr) : Prop := i.row.hits (encodeWord i) = true

/-- Masking with the opcode field keeps the quotient by 2^32. -/
theorem and_opMask_toNat (w : Cmd) : (w &&& 0xF00000000#36).toNat = w.toNat / 2 ^ 32 * 2 ^ 32 := by
  have hw := w.isLt
  have h : w &&& 0xF00000000#36 = (w >>> 32) <<< 32 := by
    ext i hi
    simp only [BitVec.getElem_and, BitVec.getElem_shiftLeft]
    rcases Nat.lt_or_ge i 32 with hlt | hge
    · have low : ∀ j < 32, (0xF00000000#36).getLsbD j = false := by decide
      have := low i hlt
      rw [BitVec.getLsbD_eq_getElem hi] at this
      simp [hlt, this]
    · have high : ∀ j < 36, 32 ≤ j → (0xF00000000#36).getLsbD j = true := by decide
      have := high i hi hge
      rw [BitVec.getLsbD_eq_getElem hi] at this
      simp [Nat.not_lt.mpr hge, this, Nat.add_sub_cancel' hge, BitVec.getLsbD_eq_getElem hi]
  rw [h, BitVec.toNat_shiftLeft, BitVec.toNat_ushiftRight, Nat.shiftLeft_eq, Nat.shiftRight_eq_div_pow]
  omega

/-- An assembled word lies in the row that fixes its opcode alone. -/
theorem cmdWord_hits (op : BitVec 4) (a b : Half) :
    TableRow.hits ⟨0xF00000000#36, cmdWord op 0 0⟩ (cmdWord op a b) = true := by
  simp only [TableRow.hits, beq_iff_eq]
  apply BitVec.eq_of_toNat_eq
  rw [and_opMask_toNat]
  have := op.isLt
  have := a.isLt
  have := b.isLt
  have zero : (0 : Half).toNat = 0 := rfl
  simp only [cmdWord, BitVec.toNat_ofNat]
  omega

theorem RowMatch.hread (a c : Half) : RowMatch.Statement (.hread a c) := cmdWord_hits 1 a c

theorem RowMatch.sread (a c : Half) : RowMatch.Statement (.sread a c) := cmdWord_hits 2 a c

theorem RowMatch.swrite (a n : Half) (payload : List Half) : RowMatch.Statement (.swrite a n payload) :=
  cmdWord_hits 3 a n

theorem RowMatch.encs : RowMatch.Statement .encs := by unfold RowMatch.Statement; decide

theorem RowMatch.encd : RowMatch.Statement .encd := by unfold RowMatch.Statement; decide

theorem RowMatch.tick : RowMatch.Statement .tick := by unfold RowMatch.Statement; decide

theorem RowMatch.gpos : RowMatch.Statement .gpos := by unfold RowMatch.Statement; decide

theorem RowMatch.gadv : RowMatch.Statement .gadv := by unfold RowMatch.Statement; decide

theorem RowMatch.genc : RowMatch.Statement .genc := by unfold RowMatch.Statement; decide

end Sys2Proof.Laws
end

