-- ==== Sys2Proof/Tests/Slice0.lean ====
section
/-!
SUPPORT. The model's own tests: expected values from 95_test_vectors.md (named in each comment) or worked out by hand from
the encoding, the smoke tests of the well-formedness checks, and for every obligation with hypotheses a concrete state
that meets them.
-/

-- One theorem at a time: many kernel evaluations at once ask for more threads than the memory limit of a check allows.
set_option Elab.async false

namespace Sys2Proof.Tests

open Sys2Proof.Machine

/-! ## Helpers -/

/-- A transaction's own answer. -/
def answered : Result → Option (Status × ResponseData)
  | .next s => s.responses.getLast?.map fun r => (r.status, r.data)
  | .fault _ => none
  | .refused _ => none

/-- Something read from the next state. -/
def after {α : Type} (f : State → α) : Result → Option α
  | .next s => some (f s)
  | .fault _ => none
  | .refused _ => none

/-- Why it was refused. -/
def refusal : Result → Option Refusal
  | .next _ => none
  | .fault _ => none
  | .refused r => some r

def completes : Result → Bool
  | .next _ => true
  | .fault _ => false
  | .refused _ => false

theorem completes_iff {o : Result} : completes o = true ↔ ∃ t, o = .next t := by
  cases o <;> simp [completes]

/-- A small machine: a capacity, some registers, a class; the frame base is 10, the position (40.0, -3.5). -/
def machine (cls : DeviceClass) (cap : Nat) (regs : List (Nat × Half)) : State where
  cfg := { Config.atReset with deviceClass := cls, frameBase := 10 }
  cap := cap
  reg := regs.foldl (fun m p => writeReg m p.1 p.2) []
  msg := 0
  ticks := 0
  lat := 0x4044000000000000
  lon := 0xC00C000000000000
  freeIndex := 0
  ctx := .tick
  draws := ⟨5, 20, 80, 0xC04B800000000000, 90, true, 0x3FD0000000000000, 0x3FE0000000000000⟩
  pending := []
  turns := []
  responses := []

/-- The store of V-HREAD. -/
def store10 : State := machine .station 10 [(3, 0x1234), (4, 0xABCD), (9, 0xBEEF)]

/-- A machine whose station frame ends exactly at the capacity. -/
def station30 : State := machine .station 30 [(9, 7)]

/-- A machine whose device frame ends exactly at the capacity, with draws of the device class. -/
def device21 : State :=
  let s := machine .device 21 [(9, 7)]
  { s with draws := { s.draws with inc := 3 } }

/-- The same, one register short. -/
def device20 : State := { device21 with cap := 20 }

/-- A character's code as a byte. -/
def ascii (text : String) : List Byte := text.toList.map fun c => BitVec.ofNat 8 c.toNat

/-! ## Well-formedness (30_encoding.md R71, 00_scope.md R6) -/

theorem test_wellFormed_refuses_short_payload : Instr.wellFormed (.swrite 3 2 [1]) = false := by decide

theorem test_wellFormed_accepts_payload : Instr.wellFormed (.swrite 3 2 [1, 2]) = true := by decide

/-- One configuration for each constraint of R6, each refused; the configuration of reset is not. -/
theorem test_configValid_smoke :
    configValid Config.atReset = true ∧
    configValid { Config.atReset with stationInc := ⟨2, 1⟩ } = false ∧
    configValid { Config.atReset with deviceInc := ⟨1, 65536⟩ } = false ∧
    configValid { Config.atReset with devcountRange := ⟨2, 1⟩ } = false ∧
    configValid { Config.atReset with signalRange := ⟨2, 1⟩ } = false ∧
    configValid { Config.atReset with deviceLqRange := ⟨2, 1⟩ } = false ∧
    configValid { Config.atReset with stationLqRange := ⟨0xC044000000000000, 0xC051800000000000⟩ } = false ∧
    configValid { Config.atReset with stationLqRange := ⟨0xC051800000000000, 0x7FF0000000000000⟩ } = false ∧
    configValid { Config.atReset with stationDropPeriod := 0 } = false ∧
    configValid { Config.atReset with deviceDropPeriod := 0 } = false ∧
    configValid { Config.atReset with stationFrameBytes := 41 } = false ∧
    configValid { Config.atReset with stationFrameBytes := 14 } = false ∧
    configValid { Config.atReset with deviceFrameBytes := 24 } = false ∧
    configValid { Config.atReset with stationLayout := { quality := 33 } } = false ∧
    configValid { Config.atReset with deviceLayout := { geo := 7 } } = false ∧
    configValid { Config.atReset with geoStep := 0x7FF0000000000000 } = false ∧
    configValid { Config.atReset with geoStep := 0xBFF0000000000000 } = false := by decide +kernel

/-! ## Decoding: words written out from 30_encoding.md R70 and R73 -/

/-- op 0001, A = 3, B = 4 (R80's example) -/
theorem test_decode_hread :
    decode 0b000100000000000000110000000000000100 [] = .instr (.hread 3 4) := by decide

/-- op 0010, A = 8, B = 2 -/
theorem test_decode_sread :
    decode 0b001000000000000010000000000000000010 [] = .instr (.sread 8 2) := by decide

/-- op 0011, A = 3, B = 2, then the payload (R80's example) -/
theorem test_decode_swrite :
    decode 0b001100000000000000110000000000000010 [0x1234, 0xABCD] = .instr (.swrite 3 2 [0x1234, 0xABCD]) := by decide

theorem test_decode_encs : decode 0b010000000000000000000000000000000000 [] = .instr .encs := by decide

theorem test_decode_encd : decode 0b010100000000000000000000000000000000 [] = .instr .encd := by decide

theorem test_decode_tick : decode 0b011000000000000000000000000000000000 [] = .instr .tick := by decide

theorem test_decode_gpos : decode 0b011100000000000000000000000000000000 [] = .instr .gpos := by decide

theorem test_decode_gadv : decode 0b100000000000000000000000000000000000 [] = .instr .gadv := by decide

theorem test_decode_genc : decode 0b100100000000000000000000000000000000 [] = .instr .genc := by decide

/-- V-ILLEGAL -/
theorem test_decode_illegal :
    decode 0x000000000 [] = .illegal (.reservedOpcode 0) ∧ decode 0xA00000000 [] = .illegal (.reservedOpcode 10) ∧
    decode 0xFFFFFFFFF [] = .illegal (.reservedOpcode 15) ∧ decode 0x400010000 [] = .illegal (.fieldNotZero 4) ∧
    decode 0x600000001 [] = .illegal (.fieldNotZero 6) ∧ decode 0x900000001 [] = .illegal .altitude ∧
    decode 0x900010001 [] = .illegal (.fieldNotZero 9) ∧ decode 0x300000001 [] = .payloadMismatch := by decide

/-- Every table row's word, placed at reset, runs next. -/
theorem test_table_words_run_from_reset :
    (List.range 9).all (fun k => completes (step (State.reset.withFetchWord 40 ((k + 1) * 2 ^ 32)))) = true := by
  decide +kernel

/-! ## Meanings: 95_test_vectors.md -/

/-- V-HREAD, `HREAD 3, 3`: the low byte of the last register is dropped -/
theorem test_hread_odd_count :
    answered (execHread 3 3 store10) = some (.ok, .bytes [0x03, 0x12, 0x34, 0xAB]) := by decide +kernel

/-- V-HREAD, `HREAD 9, 3` -/
theorem test_hread_out_of_range :
    answered (execHread 9 3 store10) = some (.illegalDataAddress, .bytes [0, 0, 0, 0]) := by decide +kernel

/-- V-SREAD's bound: `a + c = CAP` -/
theorem test_sread_last_registers :
    answered (execSread 8 2 store10) = some (.ok, .words [0, 0xBEEF]) := by decide +kernel

/-- V-SREAD, `SREAD 11, 0` on a capacity of 10 -/
theorem test_sread_beyond_capacity :
    answered (execSread 11 0 store10) = some (.outOfRange, .words []) := by decide +kernel

/-- V-SWRITE, `SWRITE 8, [1, 2]` -/
theorem test_swrite_last_registers :
    after (fun s => memRead s.reg 7 3) (execSwrite 8 2 [1, 2] store10) = some [0, 1, 2] := by decide +kernel

/-- V-SWRITE, `SWRITE 9, [1, 2]`: nothing is written -/
theorem test_swrite_all_or_nothing :
    after (fun s => readReg s.reg 9) (execSwrite 9 2 [1, 2] store10) = some 0xBEEF := by decide +kernel

/-- V-ENCS, row 3: the counter wraps from 65535 by 50 to 49 -/
theorem test_encs_wraps :
    answered (execEncs { store10 with msg := 65535, draws := ⟨50, 23, 87, 0xC051800000000000, 0, false, 0, 0⟩ }) =
      some (.ok, .words [0x0100, 0x0031, 0x0017, 0x0057, 0xC051, 0x8000, 0, 0, 0, 0, 0, 0, 0, 0, 0, 0, 0, 0, 0, 0]) := by
  decide +kernel

/-- V-ENCS, row 4: the drop on tick 23 -/
theorem test_encs_drops :
    answered (execEncs { store10 with
      ticks := 22, msg := 100, draws := ⟨7, 19, 75, 0xC04F400000000000, 0, false, 0, 0⟩ }) =
      some (.ok, .words [0x0000, 0x006B, 0x0013, 0x004B, 0xC04F, 0x4000, 0, 0, 0, 0, 0, 0, 0, 0, 0, 0, 0, 0, 0, 0]) := by
  decide +kernel

/-- V-ENCD, row 2: drop on tick 17, wrap, the position before the advance -/
theorem test_encd_drops :
    answered (execEncd { device21 with
      ticks := 16, msg := 65534, draws := ⟨3, 0, 0, 0, 80, false, 0xBFD0000000000000, 0xBFE0000000000000⟩ }) =
      some (.ok, .words [0x0000, 0x0001, 0x0050, 0x4044, 0, 0, 0, 0xC00C, 0, 0, 0]) := by decide +kernel

/-- V-ENCD, row 4: the rounded sums -/
theorem test_encd_advances :
    after (fun s => (s.lat, s.lon)) (execEncd { device21 with
      lat := 0x40443559B3D07C85, lon := 0xC00DA161E4F765FE,
      draws := ⟨1, 0, 0, 0, 85, true, 0x3F50624DD2F1A9FC, 0xBF50624DD2F1A9FC⟩ }) =
      some (0x4044357A786C2268, 0xC00DA36E2EB1C433) := by decide +kernel

/-- V-TICK: the frame at FRAME_BASE 10 with CAP = 30 fits exactly -/
theorem test_tick_fits :
    after (fun s => memRead s.reg 9 9) (execTick station30) =
      some [7, 0x0100, 5, 20, 80, 0xC04B, 0x8000, 0, 0] := by decide +kernel

/-- V-TICK: a frame that does not fit writes nothing and keeps the counters and the advance (P3, transaction 1) -/
theorem test_tick_does_not_fit :
    after (fun s => (s.reg, s.ticks, s.msg, s.lat, s.responses.map (·.status))) (execTick device20) =
      some (device20.reg, 1, 3, 0x4044200000000000, [.outOfRange]) := by decide +kernel

/-- V-GEO -/
theorem test_gpos :
    answered (execGpos station30) = some (.ok, .position 0x4044000000000000 0xC00C000000000000) := by decide +kernel

/-- V-GEO: no clamping at 90 and 180 -/
theorem test_gadv_does_not_clamp :
    after (fun s => (s.lat, s.lon)) (execGadv { station30 with
      lat := 0x405679999999999A, lon := 0x40667CCCCCCCCCCD,
      draws := ⟨0, 0, 0, 0, 0, false, 0x3FE0000000000000, 0x3FE0000000000000⟩ }) =
      some (0x405699999999999A, 0x40668CCCCCCCCCCD) := by decide +kernel

/-- V-GEO: (-0.0, +0.0) with draws +0.0 and -0.0 gives (+0.0, +0.0) -/
theorem test_gadv_signed_zero :
    after (fun s => (s.lat, s.lon)) (execGadv { station30 with
      lat := 0x8000000000000000, lon := 0, draws := ⟨0, 0, 0, 0, 0, false, 0, 0x8000000000000000⟩ }) =
      some (0, 0) := by decide +kernel

/-- V-GEO -/
theorem test_genc :
    answered (execGenc station30) =
      some (.ok, .bytes [0x40, 0x44, 0, 0, 0, 0, 0, 0, 0xC0, 0x0C, 0, 0, 0, 0, 0, 0]) := by decide +kernel

/-- 60_exceptions.md R211 (a) and (b) -/
theorem test_refusals :
    refusal (execEncs { station30 with draws := { station30.draws with inc := 51 } }) = some .drawOutOfSet ∧
    refusal (execGadv { station30 with draws := { station30.draws with dlat := 0x3FF0000000000001 } }) =
      some .drawOutOfSet ∧
    refusal (execTick { station30 with ctx := .read 0 }) = some .mutatingFromReadContext := by decide +kernel

/-- A configuration of narrower widths (00_scope.md R5): addresses below 256, counts below 16, registers below 4096. -/
def narrow : State := { store10 with cfg := { store10.cfg with addrW := 8, cntW := 4, regW := 12, msgW := 8 } }

/-- No operand and no word ends a run: an address, a count, a payload word and a frame word too wide for their places. -/
theorem test_narrow_completes :
    completes (execSread 256 16 narrow) = true ∧ completes (execHread 256 16 narrow) = true ∧
    completes (execSwrite 0 1 [4096] narrow) = true ∧ completes (execTick narrow) = true := by decide +kernel

/-- The largest values that fit. -/
theorem test_narrow_boundary :
    answered (execSread 255 15 narrow) = some (.outOfRange, .words []) ∧
    after (fun s => readReg s.reg 0) (execSwrite 0 1 [4095] narrow) = some 4095 := by decide +kernel

/-- MSG_W = 8: 255 and an increment of 5 give 4. -/
theorem test_narrow_counter_wraps : after (fun s => s.msg) (execEncs { narrow with msg := 255 }) = some 4 := by
  decide +kernel

/-- Widths above the spec's: MSG_W = 32, 65535 and an increment of 5 give 65540. -/
theorem test_wide_counter :
    after (fun s => s.msg) (execEncs { narrow with msg := 65535, cfg := { narrow.cfg with msgW := 32, regW := 32 } }) =
      some 65540 := by decide +kernel

/-! ## Snapshots and reset: V-SNAP -/

theorem test_snapshot_accepts :
    decodeSnapshot (ascii "[1,2,65535]") = some [1, 2, 65535] ∧ decodeSnapshot (ascii "[]") = some [] ∧
    decodeSnapshot (ascii " [ 4 , 5 ] ") = some [4, 5] ∧ decodeSnapshot (ascii "[0,10]") = some [0, 10] := by
  decide +kernel

theorem test_snapshot_rejects :
    (["[1,2,65536]", "[-1]", "[1.0]", "[1e0]", "[null]", "[\"1\"]", "[1,", "[01]", "[1,]", "[1 2]", "", "[1]x"].map
      fun t => decodeSnapshot (ascii t)) = List.replicate 12 none := by decide +kernel

/-- E8 -/
theorem test_boot_from_snapshot :
    (match bootReset Config.atReset ⟨.file (ascii "[1,2,3]"), some ⟨5, 6⟩, ⟨0, 0⟩⟩ with
      | .next b => (b.state.cap, memRead b.state.reg 0 3, b.state.lat, b.snapStatus)
      | _ => (0, [], 0, .snapNone)) = (3, [1, 2, 3], 5, .snapOk) := by decide +kernel

/-! ## Text: 30_encoding.md R77 -/

theorem test_assemble_hread :
    assembleLine Config.atReset Draws.zero "RC1: HREAD 3, 0x4".toList =
      some [⟨.read 1, 0x100030004, [], Draws.zero⟩] := by decide +kernel

theorem test_assemble_swrite :
    assembleLine Config.atReset Draws.zero "SWRITE 3, [0x1234, 0xABCD]".toList =
      some [⟨.tick, 0x300030002, [0x1234, 0xABCD], Draws.zero⟩] := by decide +kernel

/-- `ENCS inc=5, ..., lq=-55.0, b=1` in braces: the draws of V-ENCS, row 1 -/
theorem test_assemble_draws :
    assembleLine Config.atReset Draws.zero
      ("ENCS ".toList ++ [openBrace] ++ "inc=5, cnt=20, sig=80, lq=-55.0, b=1".toList ++ [closeBrace]) =
      some [⟨.tick, 0x400000000, [], ⟨5, 20, 80, 0xC04B800000000000, 0, true, 0, 0⟩⟩] := by decide +kernel

/-! ## Witnesses: what the hypotheses of each obligation ask for, met together -/

/-- A TICK and an HREAD pending together, for the steps below. -/
def twoPending : State :=
  { station30 with pending := [requestOf .tick .tick station30.draws, requestOf (.read 0) (.hread 10 4) Draws.zero] }

def illegalPending : State := { station30 with pending := [⟨.read 0, 0x900000001, [], Draws.zero⟩] }

def shortPayloadPending : State := { station30 with pending := [⟨.tick, 0x300000002, [1], Draws.zero⟩] }

theorem witness_DecodeOfEncodeIsIdentity : (Instr.swrite 65535 1 [7]).wellFormed = true := by decide

theorem witness_DecodedWordIsAssembledWord : decode 0x3FFFF0001 [7] = .instr (.swrite 65535 1 [7]) := by decide

theorem witness_TableRowsAreDisjoint :
    (Instr.hread 1 2).row.hits 0x1FFFFFFFF = true ∧ (Instr.hread 3 4).row.hits 0x1FFFFFFFF = true := by decide

theorem witness_IllegalWordsAnswerIllegalCommand :
    (∃ why, decode 0x900000001 [] = .illegal why) ∧ IllegalWord 0x900000001 ∧ IllegalWord 0xA00000000 ∧
    IllegalWord 0x0FFFFFFFF ∧ ¬ IllegalWord 0x900000000 ∧ ¬ IllegalWord 0x300000000 ∧
    fetch illegalPending = .request ⟨.read 0, 0x900000001, [], Draws.zero⟩
      (illegalPending.accept ⟨.read 0, 0x900000001, [], Draws.zero⟩ [] []) ∧
    configValid illegalPending.cfg = true := by
  refine ⟨⟨.altitude, by decide⟩, ?_⟩
  unfold IllegalWord
  decide +kernel

theorem witness_PseudoInstructionsExpand : (32767 : Nat) ≤ 32767 ∧ 32767 < 32768 ∧ 0 < [Draws.zero].length := by decide

theorem witness_StepRunsTheDecodedRequest :
    decode 0x600000000 [] = .instr .tick ∧ twoPending.turns = [] ∧
    twoPending.pending = requestOf .tick .tick station30.draws :: [requestOf (.read 0) (.hread 10 4) Draws.zero] ∧
    (let s := { twoPending with turns := [.read 0] };
      decode 0x1000A0004 [] = .instr (.hread 10 4) ∧ s.turns = Context.read 0 :: [] ∧
      s.pending = [requestOf .tick .tick station30.draws] ++ requestOf (.read 0) (.hread 10 4) Draws.zero :: [] ∧
      ∀ q ∈ [requestOf .tick .tick station30.draws], q.ctx ≠ .read 0) := by decide +kernel

theorem witness_EveryRequestGetsOneResponse :
    completes (step twoPending) = true ∧ completes (step station30) = true ∧
    (match fetch twoPending with | .request _ _ => true | .idle _ => false) = true ∧
    (match fetch station30 with | .request _ _ => false | .idle _ => true) = true := by decide +kernel

theorem witness_ContextsKeepTheirOwnOrder :
    (match fetch { twoPending with turns := [.read 0] } with | .request r _ => r.ctx == .read 0 | .idle _ => false) = true ∧
    Context.tick ≠ Context.read 0 := by decide +kernel

theorem witness_NothingHappensWithoutARequest :
    station30.turns = [] ∧ station30.pending = [] ∧
    ({ twoPending with turns := [Context.read 5] }).turns = Context.read 5 :: [] ∧
    ∀ q ∈ twoPending.pending, q.ctx ≠ .read 5 := by decide +kernel

theorem witness_RefusalsAreExactlyTheListedOnes :
    completes (exec .tick station30) = true ∧ completes (exec .tick { station30 with ctx := .read 0 }) = false ∧
    decode 0x300000002 [1] = .payloadMismatch ∧
    (match fetch shortPayloadPending with | .request _ _ => true | .idle _ => false) = true ∧
    (let s := { shortPayloadPending with cfg := { Config.atReset with stationDropPeriod := 0 } };
      configValid s.cfg = false ∧ (match fetch s with | .request _ _ => true | .idle _ => false) = true) := by
  decide +kernel

/-- Both sides of the equivalence: a configuration that is admitted, and one that is not. -/
theorem witness_AdmittedConfigurationsAreThoseOfTheScope :
    configValid { Config.atReset with stationLqRange := ⟨0, 0x8000000000000000⟩ } = true ∧
    configValid { Config.atReset with stationInc := ⟨0, 65536⟩ } = false := by decide +kernel

theorem witness_WritesFollowTheAccessMatrix :
    completes (exec .encs station30) = true ∧ stores .encs = false ∧ moves .encs = false ∧ encodes .gpos = false ∧
    (let s := { station30 with ctx := .read 3 };
      s.ctx = .read 3 ∧ mutates (.swrite 0 1 [5]) = true) := by decide +kernel

/-- Widths of 16, values that fit narrower ones, and values that do not. -/
theorem witness_TooWideValuesActAsSomeThatFit :
    16 ≤ store10.cfg.addrW ∧ 16 ≤ store10.cfg.cntW ∧ 16 ≤ store10.cfg.regW ∧
    (255#16).toNat < 2 ^ narrow.cfg.addrW ∧ (15#16).toNat < 2 ^ narrow.cfg.cntW ∧
    (4095#16).toNat < 2 ^ narrow.cfg.regW ∧ ¬ (256#16).toNat < 2 ^ narrow.cfg.addrW ∧
    (List.replicate 16 4096#16).length = (16#16).toNat := by decide +kernel

/-- Both clauses at the boundary: `a + c = CAP` and `a + c = CAP + 1`. -/
theorem witness_SreadAnswersTheRegisters :
    configValid store10.cfg = true ∧ FieldsFit store10.cfg 8 2 ∧ FieldsFit store10.cfg 8 3 ∧
    (8#16).toNat + (2#16).toNat ≤ store10.cap ∧
    store10.cap < (8#16).toNat + (3#16).toNat := by
  unfold FieldsFit
  decide +kernel

theorem witness_SwriteStoresAllOrNothing :
    configValid store10.cfg = true ∧ FieldsFit store10.cfg 8 2 ∧ FieldsFit store10.cfg 9 2 ∧
    WordsFit store10.cfg [1, 2] ∧
    [1#16, 2#16].length = (2#16).toNat ∧ store10.ctx = .tick ∧
    Memory.wf store10.reg = true ∧ (8#16).toNat + (2#16).toNat ≤ store10.cap ∧
    store10.cap < (9#16).toNat + (2#16).toNat ∧ ({ store10 with ctx := Context.read 1 }).ctx = .read 1 := by
  refine ⟨by decide +kernel, ⟨by decide, by decide⟩, ⟨by decide, by decide⟩, fun w _ => w.isLt, ?_⟩
  decide +kernel

theorem witness_ReadsHaveNoSideEffectsAndRepeat :
    mutates (.hread 3 4) = false ∧ completes (exec (.hread 3 4) store10) = true ∧
    (let u := { store10 with ticks := 9 };
      u.cfg = store10.cfg ∧ u.reg = store10.reg ∧ u.cap = store10.cap ∧ completes (exec (.sread 3 4) u) = true) ∧
    Memory.wf store10.reg = true ∧
    (match exec (.swrite 8 2 [1, 2]) store10 with
      | .next t => completes (exec (.swrite 8 2 [1, 2]) t)
      | _ => false) = true := by decide +kernel

/-- Both clauses at the boundary: 4 bytes from register 8 of 10, and 5 bytes. -/
theorem witness_HreadAnswersTheBuffer :
    configValid store10.cfg = true ∧ FieldsFit store10.cfg 8 4 ∧ FieldsFit store10.cfg 8 5 ∧
    (8#16).toNat + ((4#16).toNat + 1) / 2 ≤ store10.cap ∧
    store10.cap < (8#16).toNat + ((5#16).toNat + 1) / 2 := by
  unfold FieldsFit
  decide +kernel

theorem witness_HreadBytesAreSreadWordsInBytes :
    configValid store10.cfg = true ∧ FieldsFit store10.cfg 8 3 ∧ FieldsFit store10.cfg 8 4 ∧
    (2#16).toNat = ((3#16).toNat + 1) / 2 ∧
    (8#16).toNat + (2#16).toNat ≤ store10.cap ∧ store10.cap = 10 := by
  unfold FieldsFit
  decide +kernel

theorem defaultFrames_machine (cls : DeviceClass) (cap : Nat) (regs : List (Nat × Half)) :
    DefaultFrames (machine cls cap regs).cfg := ⟨rfl, rfl, rfl, rfl, rfl⟩

theorem witness_EncsBuildsTheStationFrame :
    configValid station30.cfg = true ∧ DefaultFrames station30.cfg ∧ station30.cfg.msgW = 16 ∧ station30.ctx = .tick ∧
    StationDraws station30.cfg station30.draws := by
  refine ⟨by decide +kernel, defaultFrames_machine _ _ _, rfl, rfl, ?_⟩
  unfold StationDraws
  decide +kernel

theorem witness_EncdBuildsTheDeviceFrame :
    configValid device21.cfg = true ∧ DefaultFrames device21.cfg ∧ device21.cfg.msgW = 16 ∧ device21.ctx = .tick ∧
    DeviceDraws device21.cfg device21.draws := by
  refine ⟨by decide +kernel, defaultFrames_machine .device 21 [(9, 7)], rfl, rfl, ?_⟩
  unfold DeviceDraws GeoDraws
  decide +kernel

/-- Under a layout that is not the default one. -/
theorem witness_FrameLengthsAreFixed :
    let s := { device21 with cfg := { device21.cfg with stationLayout := { quality := 32 }, stationFrameBytes := 44 } };
    configValid s.cfg = true ∧ s.ctx = .tick ∧ StationDraws s.cfg s.draws ∧ DeviceDraws s.cfg s.draws := by
  unfold StationDraws DeviceDraws GeoDraws
  decide +kernel

theorem witness_StatusDropsOnlyOnThePeriod :
    DefaultFrames station30.cfg ∧ ∃ t w ws, exec .tick { station30 with ticks := 22 } = .next t ∧
      ∃ status, t.responses = [] ++ [⟨.tick, status, .words (w :: ws)⟩] := by
  refine ⟨defaultFrames_machine _ _ _, _, 0x0100, [5, 20, 80, 0xC04B, 0x8000, 0, 0, 0, 0, 0, 0, 0, 0, 0, 0, 0, 0, 0, 0],
    rfl, .ok, ?_⟩
  decide +kernel

theorem witness_MessageCounterWraps :
    station30.cfg.msgW = 16 ∧ encodes .tick = true ∧ completes (exec .tick station30) = true ∧
    (let s := { station30 with msg := 65535, draws := { station30.draws with inc := 1 } };
      completes (exec .encs s) = true ∧ s.cfg.msgW = 16 ∧ s.msg = 65535 ∧ s.draws.inc = 1) ∧
    (let s := { station30 with msg := 65535, draws := { station30.draws with inc := 50 } };
      completes (exec .encs s) = true ∧ s.draws.inc = 50) := by decide +kernel

theorem witness_OnlyEncodesMoveTheCounters :
    completes (step twoPending) = true ∧ nextInstr twoPending = some .tick ∧ encodes .tick = true ∧
    completes (step illegalPending) = true ∧ nextInstr illegalPending = none := by decide +kernel

/-- Both classes, a frame that ends at the capacity and one that ends one register beyond it. -/
theorem witness_TickEncodesAdvancesAndWrites :
    (Admitted .tick station30 ∧ Memory.wf station30.reg = true ∧ station30.cfg.deviceClass = .station ∧
      station30.cfg.frameBase + 20 = station30.cap) ∧
    (Admitted .tick device21 ∧ Memory.wf device21.reg = true ∧ device21.cfg.deviceClass = .device ∧
      device21.cfg.frameBase + 11 = device21.cap) ∧
    (Admitted .tick device20 ∧ Memory.wf device20.reg = true ∧ device20.cap + 1 = device20.cfg.frameBase + 11) := by
  have h1 : Admitted .tick station30 := by
    refine ⟨by decide +kernel, fun _ => rfl, ?_, rfl⟩
    show StationDraws _ _ ∧ GeoDraws _ _
    unfold StationDraws GeoDraws
    decide +kernel
  have h2 : DeviceDraws device21.cfg device21.draws := by
    unfold DeviceDraws GeoDraws
    decide +kernel
  exact ⟨⟨h1, by decide +kernel, rfl, rfl⟩,
    ⟨⟨by decide +kernel, fun _ => rfl, h2, rfl⟩, by decide +kernel, rfl, rfl⟩,
    ⟨by decide +kernel, fun _ => rfl, h2, rfl⟩, by decide +kernel, rfl⟩

theorem witness_StationTickFillsTheRegisters :
    DefaultFrames station30.cfg ∧ 16 ≤ station30.cfg.regW ∧ station30.cfg.msgW = 16 ∧ station30.cfg.deviceClass = .station ∧ Memory.wf station30.reg = true ∧
    station30.cfg.frameBase + 20 ≤ station30.cap ∧ (∃ t, exec .tick station30 = .next t) ∧
    0 < (stationWords station30).length :=
  ⟨defaultFrames_machine _ _ _, by decide +kernel, rfl, rfl, by decide +kernel, by decide +kernel,
    completes_iff.mp (by decide +kernel), by decide +kernel⟩

theorem witness_HreadAfterTickSeesItsFrame :
    Memory.wf device21.reg = true ∧ 16 ≤ device21.cfg.regW ∧ FieldsFit device21.cfg 10 22 ∧
    (∃ t, exec .tick device21 = .next t ∧ t.responses = device21.responses ++
      [⟨.tick, .ok, .words [0x0100, 3, 90, 0x4044, 0, 0, 0, 0xC00C, 0, 0, 0]⟩]) ∧
    (10#16).toNat = device21.cfg.frameBase ∧
    (22#16).toNat = 2 * [0x0100#16, 3, 90, 0x4044, 0, 0, 0, 0xC00C, 0, 0, 0].length := by
  refine ⟨by decide +kernel, by decide +kernel, ⟨by decide, by decide⟩, ⟨_, rfl, ?_⟩, by decide +kernel, by decide +kernel⟩
  decide +kernel

theorem witness_GposAnswersThePosition : configValid station30.cfg = true := by decide +kernel

/-- A delta at the bound, and one past it. -/
theorem witness_GadvTakesOneStep :
    configValid station30.cfg = true ∧ station30.ctx = .tick ∧
    GeoDraws station30.cfg { station30.draws with dlat := 0xBFF0000000000000 } ∧
    fMagnitude station30.cfg.geoStep < fMagnitude 0xBFF0000000000001 ∧ fIsNaN 0x7FF8000000000000 = true := by
  unfold GeoDraws
  decide +kernel

theorem witness_GencAnswersTheEncodedPosition :
    configValid station30.cfg = true ∧ station30.cfg.floatOrder = .big ∧
    (let s := { station30 with cfg := { station30.cfg with floatOrder := .little } };
      configValid s.cfg = true ∧ s.cfg.floatOrder = .little) := by decide +kernel

/-- 2^53 and 1: the exact sum lies halfway, and 2^53 + 2 is as near as the sum. -/
theorem witness_SumIsNearestTiesToEven :
    fIsFinite 0x4340000000000000 = true ∧ fIsFinite 0x3FF0000000000000 = true ∧
    fIsFinite (fAdd 0 0x4340000000000000 0x3FF0000000000000) = true ∧ fIsFinite 0x4340000000000001 = true ∧
    fAdd 0 0x4340000000000000 0x3FF0000000000000 = 0x4340000000000000 ∧
    (fScaled 0x4340000000000000 - (fScaled 0x4340000000000000 + fScaled 0x3FF0000000000000)).natAbs =
      (fScaled 0x4340000000000001 - (fScaled 0x4340000000000000 + fScaled 0x3FF0000000000000)).natAbs ∧
    fScaled 0x4340000000000001 ≠ fScaled 0x4340000000000000 := by decide +kernel

/-- The largest finite value and half its last unit, and the same with the next smaller addend; and an exact zero. -/
theorem witness_SumOverflowsToInfinity :
    fIsFinite 0x7FEFFFFFFFFFFFFF = true ∧ fIsFinite 0x7C90000000000000 = true ∧
    fIsFinite (fAdd 0 0x7FEFFFFFFFFFFFFF 0x7C90000000000000) = false ∧
    fIsFinite (fAdd 0 0x7FEFFFFFFFFFFFFF 0x7C8FFFFFFFFFFFFF) = true ∧
    fScaled 0x3FF0000000000000 + fScaled 0xBFF0000000000000 = 0 ∧ fScaled 1 + fScaled 1 ≠ 0 := by decide +kernel

theorem witness_ZeroDeltaKeepsThePosition : fIsZero 0x8000000000000000 = true ∧ fIsZero 0 = true := by decide +kernel

theorem witness_SumWithNaNIsNaN : fIsNaN 0x7FF0000000000001 = true := by decide +kernel

theorem witness_StepKeepsTheInvariant :
    Invariant twoPending ∧ ∃ t, step twoPending = .next t :=
  ⟨⟨by decide +kernel, by decide +kernel, fun _ => BitVec.isLt _, by decide +kernel⟩, completes_iff.mp (by decide +kernel)⟩

/-- The inputs of a boot from a snapshot. -/
def bootInputs : ResetInputs := ⟨.file (ascii "[7]"), none, ⟨1, 2⟩⟩

theorem witness_ResetMeetsTheInvariant : ∃ b, bootReset Config.atReset bootInputs = .next b :=
  ⟨_, rfl⟩

theorem witness_CapacityIsSetAtResetOnly :
    (∃ b, bootReset Config.atReset bootInputs = .next b) ∧ snapshotValues bootInputs.snapshot = some [7] ∧
    snapshotValues .unreadable = none ∧ ∃ t, step twoPending = .next t :=
  ⟨⟨_, rfl⟩, by decide +kernel, rfl, completes_iff.mp (by decide +kernel)⟩

theorem witness_RegistersHoldTheLastWrite :
    Memory.wf twoPending.reg = true ∧ ∃ t, Host.Core.run Sys2Proof.core 2 twoPending = .next t :=
  ⟨by decide +kernel, _, rfl⟩

/-- The same with an SREAD. -/
def twoPendingSread : State :=
  { station30 with pending := [requestOf .tick .tick station30.draws, requestOf (.read 0) (.sread 10 20) Draws.zero] }

theorem witness_ReadSeesAWholeFrameOrNone :
    (requestOf .tick .tick station30.draws).word = 0x600000000 ∧
    (requestOf (.read 0) (.hread 10 4) Draws.zero).word = encodeWord (.hread 10 4) ∧
    (requestOf (.read 0) (.sread 10 20) Draws.zero).word = encodeWord (.sread 10 20) ∧
    twoPending.pending = [requestOf .tick .tick station30.draws, requestOf (.read 0) (.hread 10 4) Draws.zero] ∧
    twoPendingSread.pending = [requestOf .tick .tick station30.draws, requestOf (.read 0) (.sread 10 20) Draws.zero] ∧
    Admitted .tick (twoPending.accept (requestOf .tick .tick station30.draws) [] []) ∧
    Admitted .tick (twoPendingSread.accept (requestOf .tick .tick station30.draws) [] []) :=
  ⟨by decide, rfl, rfl, rfl, rfl,
    witness_TickEncodesAdvancesAndWrites.1.1, witness_TickEncodesAdvancesAndWrites.1.1⟩

theorem witness_ReadsRevealOnlyTheRegisters :
    configValid store10.cfg = true ∧ (let u := { store10 with msg := 9, ticks := 4, lat := 3 };
      configValid u.cfg = true ∧ u.cfg.addrW = store10.cfg.addrW ∧ u.cfg.cntW = store10.cfg.cntW ∧ u.cap = store10.cap ∧
        ∀ i, i < store10.cap → readReg u.reg i = readReg store10.reg i) :=
  ⟨by decide +kernel, by decide +kernel, rfl, rfl, rfl, fun _ _ => rfl⟩

theorem witness_ResetLeavesTheSpecState :
    configValid Config.atReset = true ∧ bootInputs.geoInit = none ∧ fIsFinite bootInputs.geoDraw.lat = true ∧
    fIsFinite bootInputs.geoDraw.lon = true ∧ snapshotValues bootInputs.snapshot = some [7] ∧
    snapshotValues (.file (ascii "[65536]")) = none := by decide +kernel

theorem witness_ResetReportsTheSnapshotStatus :
    (∃ b, bootReset Config.atReset bootInputs = .next b ∧ b.snapStatus = .snapOk) ∧
    ∃ b, bootReset Config.atReset { bootInputs with snapshot := .unreadable } = .next b ∧ b.snapStatus = .snapInvalid :=
  ⟨⟨_, rfl, by decide +kernel⟩, ⟨_, rfl, by decide +kernel⟩⟩

theorem witness_PlacedTableWordRunsNext :
    decodeTableWord 40 0x600000000 = some .tick ∧ configValid station30.cfg = true := by decide +kernel

end Sys2Proof.Tests
end

section
/-!
PROOFS. The statements about 00_scope.md: the admitted configurations (R6), the widths (R5) and binary64 addition (R8).

A finite binary64 magnitude is a number of units of 2^-1074, strictly rising in its bits
(`magnitudeUnits_strictMono`), and rounding takes one of the two magnitudes around the exact value
(`roundedMagnitude_nearest`). Nearness, the even tie and the overflow threshold all follow from these two facts.
-/

namespace Sys2Proof.Machine

/-! ### The fields of a bit pattern as numbers -/

theorem fMagnitude_eq (x : F64) : fMagnitude x = x.toNat % 2 ^ 63 := by
  simp [fMagnitude, BitVec.extractLsb'_toNat]

theorem fMagnitude_lt (x : F64) : fMagnitude x < 2 ^ 63 := (x.extractLsb' 0 63).isLt

theorem fExponent_eq (x : F64) : fExponent x = fMagnitude x / 2 ^ 52 := by
  rw [fMagnitude_eq, fExponent, BitVec.extractLsb'_toNat, Nat.shiftRight_eq_div_pow]
  omega

theorem fFraction_eq (x : F64) : fFraction x = fMagnitude x % 2 ^ 52 := by
  rw [fMagnitude_eq, fFraction, BitVec.extractLsb'_toNat, Nat.shiftRight_eq_div_pow]
  omega

theorem fSign_eq_true_iff (x : F64) : fSign x = true ↔ 2 ^ 63 ≤ x.toNat := by
  rw [fSign, ← BitVec.msb_eq_getLsbD_last x, BitVec.msb_eq_decide, decide_eq_true_iff]

/-- Finite magnitudes are those below the magnitude of an infinity. -/
theorem fIsFinite_iff (x : F64) : fIsFinite x = true ↔ fMagnitude x < infMagnitude := by
  have hlt := fMagnitude_lt x
  simp only [fIsFinite, infMagnitude, bne_iff_ne, fExponent_eq]
  omega

/-- NaNs are the magnitudes above that of an infinity. -/
theorem fIsNaN_iff (x : F64) : fIsNaN x = true ↔ infMagnitude < fMagnitude x := by
  have hlt := fMagnitude_lt x
  simp only [fIsNaN, infMagnitude, Bool.and_eq_true, beq_iff_eq, bne_iff_ne, fExponent_eq, fFraction_eq]
  omega

theorem fIsInf_iff (x : F64) : fIsInf x = true ↔ fMagnitude x = infMagnitude := by
  have hlt := fMagnitude_lt x
  simp only [fIsInf, infMagnitude, Bool.and_eq_true, beq_iff_eq, fExponent_eq, fFraction_eq]
  omega

/-- A finite value is no NaN. -/
theorem fIsNaN_of_finite {x : F64} (hx : fIsFinite x = true) : fIsNaN x = false := by
  have hlt := (fIsFinite_iff x).mp hx
  rw [Bool.eq_false_iff, ne_eq, fIsNaN_iff]
  omega

/-- A finite value is no infinity. -/
theorem fIsInf_of_finite {x : F64} (hx : fIsFinite x = true) : fIsInf x = false := by
  have hlt := (fIsFinite_iff x).mp hx
  rw [Bool.eq_false_iff, ne_eq, fIsInf_iff]
  omega

theorem fOfMagnitude_toNat (sign : Bool) {mag : Nat} (h : mag < 2 ^ 63) :
    (fOfMagnitude sign mag).toNat = (if sign then 2 ^ 63 else 0) + mag := by
  rw [fOfMagnitude, BitVec.toNat_ofNat, Nat.mod_eq_of_lt h, Nat.mod_eq_of_lt]
  split <;> omega

theorem fMagnitude_fOfMagnitude (sign : Bool) {mag : Nat} (h : mag < 2 ^ 63) :
    fMagnitude (fOfMagnitude sign mag) = mag := by
  rw [fMagnitude_eq, fOfMagnitude_toNat sign h]
  split <;> omega

theorem fSign_fOfMagnitude (sign : Bool) {mag : Nat} (h : mag < 2 ^ 63) :
    fSign (fOfMagnitude sign mag) = sign := by
  rw [Bool.eq_iff_iff, fSign_eq_true_iff, fOfMagnitude_toNat sign h]
  cases sign
  · simpa using h
  · simp

/-! ### NaN patterns -/

/-- The pattern `fNaN` starts from has the exponent field of a NaN, whatever further bits are set. -/
theorem fExponent_or_inf (raw : BitVec 64) : fExponent (raw ||| 0x7FF0000000000000) = 2047 := by
  have hones : (0x7FF0000000000000 : BitVec 64).extractLsb' 52 11 = BitVec.allOnes 11 := by decide
  rw [fExponent, BitVec.extractLsb'_or, hones, BitVec.or_allOnes]
  rfl

/-- Setting the exponent field keeps the fraction. -/
theorem fFraction_or_inf (raw : BitVec 64) : fFraction (raw ||| 0x7FF0000000000000) = fFraction raw := by
  have hzero : (0x7FF0000000000000 : BitVec 64).extractLsb' 0 52 = 0#52 := by decide
  rw [fFraction, BitVec.extractLsb'_or, hzero, BitVec.or_zero]
  rfl

/-- Setting the last bit gives a fraction that is not 0. -/
theorem fFraction_or_one_ne_zero (x : F64) : fFraction (x ||| 1) ≠ 0 := by
  have hone : (1 : BitVec 64).extractLsb' 0 52 = 1#52 := by decide
  rw [fFraction, BitVec.extractLsb'_or, hone, BitVec.toNat_or]
  exact fun h => absurd (Nat.or_eq_zero_iff.mp h).2 (by decide)

theorem fIsNaN_eq_true_iff (x : F64) : fIsNaN x = true ↔ fExponent x = 2047 ∧ fFraction x ≠ 0 := by
  simp [fIsNaN]

/-- Every free value gives a NaN. -/
theorem fIsNaN_fNaN (raw : BitVec 64) : fIsNaN (fNaN raw) = true := by
  rw [fIsNaN_eq_true_iff]
  unfold fNaN
  dsimp only
  split
  next =>
    have hexp : fExponent (raw ||| 0x7FF0000000000000 ||| 1) = 2047 := by
      rw [BitVec.or_assoc, BitVec.or_comm _ 1, ← BitVec.or_assoc]
      exact fExponent_or_inf _
    exact ⟨hexp, fFraction_or_one_ne_zero _⟩
  next hraw => exact ⟨fExponent_or_inf raw, by rwa [fFraction_or_inf]⟩

/-- A sum with a NaN addend is that addend or the value given for sums that are no number. -/
theorem fIsNaN_fAdd_of_nan {nan x y : F64} (hnan : fIsNaN nan = true) (h : fIsNaN x = true ∨ fIsNaN y = true) :
    fIsNaN (fAdd nan x y) = true := by
  unfold fAdd
  by_cases hx : fIsNaN x = true
  · rw [if_pos hx]
    split <;> assumption
  · rwa [if_neg hx, if_pos (h.resolve_left hx)]

/-! ### Exact values -/

/-- The value of a finite magnitude, in units of 2^-1074. -/
def magnitudeUnits (mag : Nat) : Nat :=
  if mag / 2 ^ 52 = 0 then mag % 2 ^ 52 else (2 ^ 52 + mag % 2 ^ 52) * 2 ^ (mag / 2 ^ 52 - 1)

theorem fUnits_eq (x : F64) : fUnits x = magnitudeUnits (fMagnitude x) := by
  rw [fUnits, magnitudeUnits, fExponent_eq, fFraction_eq]

theorem fScaled_eq (x : F64) :
    fScaled x = if fSign x then -(magnitudeUnits (fMagnitude x) : Int) else (magnitudeUnits (fMagnitude x) : Int) := by
  rw [fScaled, fUnits_eq]

/-- A significand `q` of at most 53 bits, or the carry `2 ^ 53` out of it, at exponent `e`: the magnitude is their plain
sum, which is why rounding up may simply add 1. -/
theorem magnitudeUnits_of_significand {e q : Nat} (hq : q ≤ 2 ^ 53) (he : e = 0 ∨ 2 ^ 52 ≤ q) :
    magnitudeUnits (e * 2 ^ 52 + q) = q * 2 ^ e := by
  unfold magnitudeUnits
  rcases Nat.lt_or_ge q (2 ^ 52) with hlow | hlow
  · obtain rfl : e = 0 := by omega
    rw [if_pos (by omega), show (0 * 2 ^ 52 + q) % 2 ^ 52 = q by omega, pow_zero, mul_one]
  rcases Nat.lt_or_ge q (2 ^ 53) with hhigh | hhigh
  · rw [if_neg (by omega), show (e * 2 ^ 52 + q) / 2 ^ 52 - 1 = e by omega,
      show 2 ^ 52 + (e * 2 ^ 52 + q) % 2 ^ 52 = q by omega]
  · rw [if_neg (by omega), show (e * 2 ^ 52 + q) / 2 ^ 52 - 1 = e + 1 by omega,
      show 2 ^ 52 + (e * 2 ^ 52 + q) % 2 ^ 52 = 2 ^ 52 by omega, show q = 2 ^ 52 * 2 by omega, pow_succ']
    ring

/-- Every magnitude is a significand of at most 53 bits at an exponent. -/
theorem exists_significand (mag : Nat) : ∃ e q, mag = e * 2 ^ 52 + q ∧ q < 2 ^ 53 ∧ (e = 0 ∨ 2 ^ 52 ≤ q) :=
  ⟨mag / 2 ^ 52 - 1, mag - (mag / 2 ^ 52 - 1) * 2 ^ 52, by omega, by omega, by omega⟩

theorem magnitudeUnits_strictMono : StrictMono magnitudeUnits := by
  refine strictMono_nat_of_lt_succ fun mag => ?_
  obtain ⟨e, q, rfl, hq, he⟩ := exists_significand mag
  rw [add_assoc, magnitudeUnits_of_significand hq.le he, magnitudeUnits_of_significand (by omega) (by omega)]
  exact Nat.mul_lt_mul_of_pos_right q.lt_succ_self (Nat.two_pow_pos e)

theorem magnitudeUnits_le_iff (m k : Nat) : magnitudeUnits m ≤ magnitudeUnits k ↔ m ≤ k :=
  magnitudeUnits_strictMono.le_iff_le

@[simp] theorem magnitudeUnits_zero : magnitudeUnits 0 = 0 := by simp [magnitudeUnits]

/-- Keys order values as the exact values do. -/
theorem fKey_le_fKey_iff (x y : F64) : fKey x ≤ fKey y ↔ fScaled x ≤ fScaled y := by
  have hxy := magnitudeUnits_le_iff (fMagnitude x) (fMagnitude y)
  have hyx := magnitudeUnits_le_iff (fMagnitude y) (fMagnitude x)
  have hx := magnitudeUnits_le_iff (fMagnitude x) 0
  have hy := magnitudeUnits_le_iff (fMagnitude y) 0
  rw [magnitudeUnits_zero] at hx hy
  simp only [fKey, fScaled_eq]
  split <;> split <;> omega

/-- Between finite values `fLe` compares the exact values. -/
theorem fLe_iff_of_finite {x y : F64} (hx : fIsFinite x = true) (hy : fIsFinite y = true) :
    fLe x y = true ↔ fScaled x ≤ fScaled y := by
  simp [fLe, fIsNaN_of_finite hx, fIsNaN_of_finite hy, fKey_le_fKey_iff]

/-- `0 ≤ x` of a finite value. -/
theorem fLe_zero_iff {x : F64} (hx : fIsFinite x = true) : fLe 0 x = true ↔ 0 ≤ fScaled x := by
  have hzero : fScaled 0 = 0 := by decide
  rw [fLe_iff_of_finite (by decide) hx, hzero]

/-! ### Rounding -/

/-- `roundMagnitude` of a whole number of units, before an overflow becomes an infinity. -/
def roundedMagnitude (n : Nat) : Nat :=
  let unit := 2 ^ excessBits n
  let q := n / unit
  let r := n % unit
  excessBits n * 2 ^ 52 + q + if unit < 2 * r ∨ (2 * r = unit ∧ q % 2 = 1) then 1 else 0

theorem roundMagnitude_one (n : Nat) : roundMagnitude n 1 = min (roundedMagnitude n) infMagnitude := by
  simp only [roundMagnitude, roundedMagnitude, Nat.div_one, one_mul]

/-- The bits that are kept: at most 53, and exactly 53 where any are cut off. -/
theorem keptBits_bounds (n : Nat) :
    n / 2 ^ excessBits n < 2 ^ 53 ∧ (excessBits n = 0 ∨ 2 ^ 52 ≤ n / 2 ^ excessBits n) := by
  unfold excessBits
  split
  next hsmall => simpa using hsmall
  next hlarge =>
    have hn : n ≠ 0 := by omega
    have hlog : 53 ≤ n.log2 := (Nat.le_log2 hn).mpr (by omega)
    have hlow : 2 ^ 52 * 2 ^ (n.log2 - 52) ≤ n := by
      rw [← pow_add, Nat.add_sub_cancel' (by omega)]
      exact Nat.log2_self_le hn
    have hhigh : n < 2 ^ 53 * 2 ^ (n.log2 - 52) := by
      rw [← pow_add, show 53 + (n.log2 - 52) = n.log2 + 1 by omega]
      exact Nat.lt_log2_self
    exact ⟨(Nat.div_lt_iff_lt_mul (Nat.two_pow_pos _)).mpr hhigh,
      .inr ((Nat.le_div_iff_mul_le (Nat.two_pow_pos _)).mpr hlow)⟩

/-- No value lies strictly between two neighbouring magnitudes. -/
theorem le_or_succ_le_of_natAbs_eq (mag : Nat) {v : Int} {k : Nat} (hv : v.natAbs = magnitudeUnits k) :
    v ≤ magnitudeUnits mag ∨ (magnitudeUnits (mag + 1) : Int) ≤ v := by
  rcases Nat.lt_or_ge mag k with hk | hk
  · have := magnitudeUnits_strictMono.monotone (Nat.succ_le_of_lt hk)
    simp only [Nat.succ_eq_add_one] at this
    omega
  · have := magnitudeUnits_strictMono.monotone hk
    omega

/-- The rounded magnitude is as near as any value, and even where another is as near. -/
theorem roundedMagnitude_nearest (n : Nat) {v : Int} {k : Nat} (hv : v.natAbs = magnitudeUnits k) :
    ((magnitudeUnits (roundedMagnitude n) : Int) - n).natAbs ≤ (v - n).natAbs ∧
      (((magnitudeUnits (roundedMagnitude n) : Int) - n).natAbs = (v - n).natAbs →
        v ≠ magnitudeUnits (roundedMagnitude n) → roundedMagnitude n % 2 = 0) := by
  obtain ⟨hq, he⟩ := keptBits_bounds n
  have hdown := magnitudeUnits_of_significand hq.le he
  have hup : magnitudeUnits (excessBits n * 2 ^ 52 + n / 2 ^ excessBits n + 1) =
      n / 2 ^ excessBits n * 2 ^ excessBits n + 2 ^ excessBits n := by
    rw [add_assoc, magnitudeUnits_of_significand (by omega) (by omega), Nat.succ_mul]
  have hgap := le_or_succ_le_of_natAbs_eq (excessBits n * 2 ^ 52 + n / 2 ^ excessBits n) hv
  have hn : n / 2 ^ excessBits n * 2 ^ excessBits n + n % 2 ^ excessBits n = n := Nat.div_add_mod' _ _
  have hr : n % 2 ^ excessBits n < 2 ^ excessBits n := Nat.mod_lt _ (Nat.two_pow_pos _)
  simp only [roundedMagnitude]
  rw [hdown, hup] at hgap
  generalize 2 ^ excessBits n = unit at *
  generalize n / unit = q at *
  generalize q * unit = low at *
  generalize n % unit = r at *
  split
  next hcond =>
    rw [hup]
    constructor <;> omega
  next hcond =>
    rw [add_zero, hdown]
    constructor <;> omega

/-- The largest finite value, the first value above it, and half way between them, by half the last unit. -/
theorem magnitudeUnits_at_overflow :
    magnitudeUnits (infMagnitude - 1) = (2 ^ 54 - 2) * 2 ^ 2044 ∧
      magnitudeUnits infMagnitude = 2 ^ 54 * 2 ^ 2044 := by
  have hmax : infMagnitude - 1 = 2045 * 2 ^ 52 + (2 ^ 53 - 1) := rfl
  have hinf : infMagnitude = 2045 * 2 ^ 52 + 2 ^ 53 := rfl
  rw [hmax, hinf, magnitudeUnits_of_significand (by omega) (by omega),
    magnitudeUnits_of_significand (by omega) (by omega), pow_succ' 2 2044]
  generalize 2 ^ 2044 = half
  constructor <;> omega

/-- A magnitude rounds to an infinity exactly from half way between the largest finite value and the next one on: the
largest finite magnitude is odd, so the tie goes up. -/
theorem infMagnitude_le_roundedMagnitude_iff (n : Nat) :
    infMagnitude ≤ roundedMagnitude n ↔ (2 ^ 54 - 1) * 2 ^ 2044 ≤ n := by
  obtain ⟨hmax, hinf⟩ := magnitudeUnits_at_overflow
  obtain ⟨hnearMax, -⟩ := roundedMagnitude_nearest n (v := magnitudeUnits (infMagnitude - 1)) (Int.natAbs_natCast _)
  obtain ⟨hnearInf, htie⟩ := roundedMagnitude_nearest n (v := magnitudeUnits infMagnitude) (Int.natAbs_natCast _)
  have hhalf : 0 < 2 ^ 2044 := pow_pos two_pos _
  generalize 2 ^ 2044 = half at hmax hinf hhalf ⊢
  constructor
  · intro hover
    have hle := magnitudeUnits_strictMono.monotone hover
    rw [hmax] at hnearMax
    rw [hinf] at hle
    omega
  · intro hn
    by_contra hbelow
    have hle : magnitudeUnits (roundedMagnitude n) ≤ magnitudeUnits (infMagnitude - 1) :=
      magnitudeUnits_strictMono.monotone (by omega)
    have heven : magnitudeUnits (roundedMagnitude n) = magnitudeUnits (infMagnitude - 1) →
        roundedMagnitude n % 2 = 1 := fun heq => by rw [magnitudeUnits_strictMono.injective heq]; rfl
    rw [hmax] at hle heven
    rw [hinf] at hnearInf htie
    omega

/-! ### Sums of finite values -/

theorem fAdd_of_finite (nan : F64) {x y : F64} (hx : fIsFinite x = true) (hy : fIsFinite y = true) :
    fAdd nan x y = fOfScaled (fScaled x + fScaled y) (fSign x && fSign y) := by
  simp [fAdd, fIsNaN_of_finite hx, fIsNaN_of_finite hy, fIsInf_of_finite hx, fIsInf_of_finite hy]

theorem fMagnitude_fOfScaled (z : Int) (zeroSign : Bool) :
    fMagnitude (fOfScaled z zeroSign) = min (roundedMagnitude z.natAbs) infMagnitude := by
  unfold fOfScaled
  split
  next hz => rw [hz, fMagnitude_fOfMagnitude zeroSign (by decide)]; rfl
  next =>
    rw [roundMagnitude_one, fMagnitude_fOfMagnitude]
    exact lt_of_le_of_lt (Nat.min_le_right _ _) (by decide)

theorem fSign_fOfScaled_of_ne_zero {z : Int} (hz : z ≠ 0) (zeroSign : Bool) :
    fSign (fOfScaled z zeroSign) = decide (z < 0) := by
  rw [fOfScaled, if_neg hz, roundMagnitude_one, fSign_fOfMagnitude]
  exact lt_of_le_of_lt (Nat.min_le_right _ _) (by decide)

/-- Rounding never gives a NaN. -/
theorem fIsNaN_fOfScaled (z : Int) (zeroSign : Bool) : fIsNaN (fOfScaled z zeroSign) = false := by
  rw [Bool.eq_false_iff, ne_eq, fIsNaN_iff, fMagnitude_fOfScaled]
  omega

theorem fIsFinite_fOfScaled_iff (z : Int) (zeroSign : Bool) :
    fIsFinite (fOfScaled z zeroSign) = true ↔ roundedMagnitude z.natAbs < infMagnitude := by
  rw [fIsFinite_iff, fMagnitude_fOfScaled]
  omega

/-- A finite result is the rounded magnitude with the sign of the exact value. -/
theorem fScaled_fOfScaled_of_finite {z : Int} {zeroSign : Bool} (hfin : fIsFinite (fOfScaled z zeroSign) = true) :
    fScaled (fOfScaled z zeroSign) =
      if z < 0 then -(magnitudeUnits (roundedMagnitude z.natAbs) : Int)
      else (magnitudeUnits (roundedMagnitude z.natAbs) : Int) := by
  have hlt := (fIsFinite_fOfScaled_iff z zeroSign).mp hfin
  rw [fScaled_eq, fMagnitude_fOfScaled, Nat.min_eq_left hlt.le]
  by_cases hz : z = 0
  · have hzero : roundedMagnitude 0 = 0 := by decide
    simp [hz, hzero]
  · simp [fSign_fOfScaled_of_ne_zero hz]

theorem natAbs_fScaled (x : F64) : (fScaled x).natAbs = magnitudeUnits (fMagnitude x) := by
  rw [fScaled_eq]
  split <;> simp

/-- A finite result is nearest to the exact value, and even where another value is as near. -/
theorem fOfScaled_nearest {z : Int} {zeroSign : Bool} (hfin : fIsFinite (fOfScaled z zeroSign) = true) (w : F64) :
    (fScaled (fOfScaled z zeroSign) - z).natAbs ≤ (fScaled w - z).natAbs ∧
      ((fScaled (fOfScaled z zeroSign) - z).natAbs = (fScaled w - z).natAbs →
        fScaled w ≠ fScaled (fOfScaled z zeroSign) → fFraction (fOfScaled z zeroSign) % 2 = 0) := by
  have hfrac : fFraction (fOfScaled z zeroSign) % 2 = roundedMagnitude z.natAbs % 2 := by
    have hlt := (fIsFinite_fOfScaled_iff z zeroSign).mp hfin
    rw [fFraction_eq, fMagnitude_fOfScaled, Nat.min_eq_left hlt.le]
    omega
  rw [hfrac, fScaled_fOfScaled_of_finite hfin]
  split
  next hneg =>
    have hw : (-fScaled w).natAbs = magnitudeUnits (fMagnitude w) := by rw [Int.natAbs_neg, natAbs_fScaled]
    obtain ⟨hle, htie⟩ := roundedMagnitude_nearest z.natAbs hw
    omega
  next hpos =>
    obtain ⟨hle, htie⟩ := roundedMagnitude_nearest z.natAbs (natAbs_fScaled w)
    omega

theorem fOfScaled_zero (zeroSign : Bool) :
    fOfScaled 0 zeroSign = if zeroSign then 0x8000000000000000 else 0 := by
  cases zeroSign <;> decide

/-! ### Configurations -/

theorem rangeValid_iff (r : IntRange) : rangeValid r = true ↔ GoodRange r := by
  simp [rangeValid, GoodRange]

theorem rangesValid_iff (c : Config) :
    rangesValid c = true ↔
      GoodRange c.stationInc ∧ GoodRange c.deviceInc ∧ GoodRange c.devcountRange ∧ GoodRange c.signalRange ∧
        GoodRange c.deviceLqRange := by
  simp [rangesValid, rangeValid_iff, and_assoc]

theorem floatRangeValid_iff (r : FloatRange) :
    floatRangeValid r = true ↔
      fIsFinite r.lo = true ∧ fIsFinite r.hi = true ∧ fScaled r.lo ≤ fScaled r.hi := by
  rw [floatRangeValid, Bool.and_eq_true, Bool.and_eq_true, and_assoc]
  exact and_congr_right fun hlo => and_congr_right fun hhi => fLe_iff_of_finite hlo hhi

theorem layoutsFit_iff (c : Config) :
    LayoutsFit c ↔ stationLayoutFits c.stationLayout c.stationFrameBytes = true ∧
      deviceLayoutFits c.deviceLayout c.deviceFrameBytes = true := by
  simp [LayoutsFit, stationLayoutFits, deviceLayoutFits, and_assoc]

theorem framesValid_iff (c : Config) :
    framesValid c = true ↔
      c.stationFrameBytes % 2 = 0 ∧ 16 ≤ c.stationFrameBytes ∧ c.deviceFrameBytes = 22 ∧ LayoutsFit c := by
  simp [framesValid, layoutsFit_iff, and_assoc]

theorem geoStepValid_iff (c : Config) :
    geoStepValid c = true ↔ fIsFinite c.geoStep = true ∧ 0 ≤ fScaled c.geoStep := by
  rw [geoStepValid, Bool.and_eq_true]
  exact and_congr_right fLe_zero_iff

/-! ### Operands and words too wide for their place -/

/-- A transaction reads its body at the state it starts from only. -/
theorem transact_congr {mutating drawsOk : Bool} {body body' : State → Answer} {s : State} (h : body s = body' s) :
    transact mutating drawsOk body s = transact mutating drawsOk body' s := by
  simp only [transact, h]

theorem addressOf_lt (c : Config) (v : Half) : addressOf c v < 2 ^ c.addrW := fitTo_lt _ _ _

theorem countOf_lt (c : Config) (v : Half) : countOf c v < 2 ^ c.cntW := fitTo_lt _ _ _

/-- What stands for an address is an operand of its own, which stands for itself. -/
theorem exists_half_addressOf (c : Config) (v : Half) :
    ∃ v' : Half, v'.toNat = addressOf c v ∧ addressOf c v' = addressOf c v := by
  have htoNat : (BitVec.ofNat 16 (addressOf c v)).toNat = addressOf c v :=
    Nat.mod_eq_of_lt (fitTo_toNat_lt _ _ v)
  exact ⟨_, htoNat, by rw [addressOf_of_lt (htoNat.trans_lt (addressOf_lt c v)), htoNat]⟩

/-- What stands for a count is an operand of its own, which stands for itself. -/
theorem exists_half_countOf (c : Config) (v : Half) :
    ∃ v' : Half, v'.toNat = countOf c v ∧ countOf c v' = countOf c v := by
  have htoNat : (BitVec.ofNat 16 (countOf c v)).toNat = countOf c v :=
    Nat.mod_eq_of_lt (fitTo_toNat_lt _ _ v)
  exact ⟨_, htoNat, by rw [countOf_of_lt (htoNat.trans_lt (countOf_lt c v)), htoNat]⟩

theorem wordsFit_map_registerValue (c : Config) (ws : List Half) : WordsFit c (ws.map (registerValue c)) := by
  intro w hw
  obtain ⟨v, -, rfl⟩ := List.mem_map.mp hw
  exact registerValue_lt c v

/-- A store takes each word as a register does, so it may be given what the registers take. -/
theorem storeWords_map_registerValue (s : State) (a : Nat) (ws : List Half) :
    storeWords s a (ws.map (registerValue s.cfg)) = storeWords s a ws := by
  simp [storeWords, State.writeWords, Function.comp_def]

theorem exec_hread_congr {a a' n n' : Half} {s : State} (ha : addressOf s.cfg a' = addressOf s.cfg a)
    (hn : countOf s.cfg n' = countOf s.cfg n) : exec (.hread a n) s = exec (.hread a' n') s := by
  simp only [exec, execHread, ha, hn]

theorem exec_sread_congr {a a' n n' : Half} {s : State} (ha : addressOf s.cfg a' = addressOf s.cfg a)
    (hn : countOf s.cfg n' = countOf s.cfg n) : exec (.sread a n) s = exec (.sread a' n') s := by
  simp only [exec, execSread, ha, hn]

/-- An SWRITE whose payload has its length is a store of the words its count takes. -/
theorem exec_swrite_of_length {a n : Half} {p : List Half} {s : State} (hp : p.length = n.toNat) :
    exec (.swrite a n p) s =
      transact true true (swriteBody (addressOf s.cfg a) (p.take (countOf s.cfg n))) s := if_pos hp

theorem length_take_countOf {c : Config} {n : Half} {p : List Half} (hp : p.length = n.toNat) :
    (p.take (countOf c n)).length = countOf c n := by
  rw [List.length_take, hp, Nat.min_eq_left (countOf_le c n)]

theorem exec_swrite_congr {a a' n n' : Half} {p : List Half} {s : State} (ha : addressOf s.cfg a' = addressOf s.cfg a)
    (hn : countOf s.cfg n' = countOf s.cfg n) (hn' : n'.toNat = countOf s.cfg n) (hp : p.length = n.toNat) :
    exec (.swrite a n p) s = exec (.swrite a' n' ((p.take n'.toNat).map (registerValue s.cfg))) s := by
  have hlen : ((p.take n'.toNat).map (registerValue s.cfg)).length = n'.toNat := by
    rw [List.length_map, hn', length_take_countOf hp]
  rw [exec_swrite_of_length hp, exec_swrite_of_length hlen, hn, ← hn', ha, List.take_of_length_le hlen.le]
  exact transact_congr (by simp only [swriteBody, storeWords_map_registerValue])

/-! ### The obligations -/

/-- Settles O37: `fNaN` gives a NaN for every free value. -/
theorem sumWithNaNIsNaN : Obligations.SumWithNaNIsNaN :=
  fun raw _ _ h => fIsNaN_fAdd_of_nan (fIsNaN_fNaN raw) h

/-- Settles O34: the exact sum is rounded once. -/
theorem sumIsNearestTiesToEven : Obligations.SumIsNearestTiesToEven := by
  intro nan x y hx hy hfin w _
  rw [fAdd_of_finite nan hx hy] at hfin ⊢
  exact fOfScaled_nearest hfin w

/-- Settles O35: overflow from the threshold of the rounded magnitude, the sign from the exact sum. -/
theorem sumOverflowsToInfinity : Obligations.SumOverflowsToInfinity := by
  intro nan x y hx hy
  rw [fAdd_of_finite nan hx hy]
  refine ⟨?overflow, fIsNaN_fOfScaled _ _, ?sign, ?zero⟩
  case overflow =>
    rw [← infMagnitude_le_roundedMagnitude_iff, ← not_lt, ← fIsFinite_fOfScaled_iff _ (fSign x && fSign y),
      Bool.not_eq_true]
  case sign =>
    intro hz
    rw [fSign_fOfScaled_of_ne_zero hz, decide_eq_true_iff]
  case zero =>
    intro hz
    rw [hz, fOfScaled_zero]

/-- Settles O13: part by part; the comparisons of binary64 values are those of their exact values. -/
theorem admittedConfigurationsAreThoseOfTheScope : Obligations.AdmittedConfigurationsAreThoseOfTheScope := by
  intro c
  simp only [configValid, Bool.and_eq_true, decide_eq_true_iff, rangesValid_iff, floatRangeValid_iff, framesValid_iff,
    geoStepValid_iff, and_assoc]

/-- Settles O15: the values that stand for the operands are operands that stand for themselves, and the words that
registers take of a payload are a payload of words that fit. -/
theorem tooWideValuesActAsSomeThatFit : Obligations.TooWideValuesActAsSomeThatFit := by
  refine ⟨?wide, fun c a n v => ⟨addressOf_of_lt, countOf_of_lt, registerValue_of_lt⟩, ?narrow⟩
  case wide =>
    intro c a n ws ha hn hr
    have hfits {width : Nat} (h : 16 ≤ width) (v : Half) : v.toNat < 2 ^ width :=
      lt_of_lt_of_le v.isLt (Nat.pow_le_pow_right (by decide) h)
    exact ⟨⟨hfits ha a, hfits hn n⟩, fun w _ => hfits hr w⟩
  case narrow =>
    intro s a n
    obtain ⟨a', ha', ha⟩ := exists_half_addressOf s.cfg a
    obtain ⟨n', hn', hn⟩ := exists_half_countOf s.cfg n
    refine ⟨a', n', ha', hn', ⟨ha' ▸ addressOf_lt s.cfg a, hn' ▸ countOf_lt s.cfg n⟩, exec_hread_congr ha hn,
      exec_sread_congr ha hn, fun p hp => ⟨_, ?length, wordsFit_map_registerValue _ _, rfl,
        exec_swrite_congr ha hn hn' hp⟩⟩
    rw [List.length_map, hn', length_take_countOf hp]

end Sys2Proof.Machine
end

section
/-!
PROOFS. The statements about 10_state.md: one response to every request (R31), the access matrix (R30), the counters
(R24, R25), the capacity (R22), what the reads reveal (R33, R34), the state after reset (R35), and the placed table word.

Every instruction is one `transact` over a body of its own (`exec_next_iff`), and its body counts, moves and stores at
most what `encodes`, `moves` and `stores` say (`execBody_state`). What an instruction changes and what it leaves follows
from these two facts without going through the instructions again.
-/

namespace Sys2Proof.Machine

/-! ### One transaction for every instruction -/

/-- What an instruction does where nothing refuses it. -/
def execBody : Instr → State → Answer
  | .hread a c, s => hreadBody (addressOf s.cfg a) (countOf s.cfg c) s
  | .sread a c, s => sreadBody (addressOf s.cfg a) (countOf s.cfg c) s
  | .swrite a n payload, s => swriteBody (addressOf s.cfg a) (payload.take (countOf s.cfg n)) s
  | .encs, s => ⟨(encodeStation s).state, .ok, .words (encodeStation s).words⟩
  | .encd, s => ⟨(encodeDevice s).state, .ok, .words (encodeDevice s).words⟩
  | .tick, s => tickBody s
  | .gpos, s => ⟨s, .ok, .position s.lat s.lon⟩
  | .gadv, s => ⟨s.advance s.draws.dlat s.draws.dlon, .ok, .none⟩
  | .genc, s => ⟨s, .ok, .bytes (geoEncode s.cfg.floatOrder s.lat s.lon)⟩

/-- The check of the draws that an instruction takes. -/
def instrDrawsOk : Instr → State → Bool
  | .encs, s => stationDrawsOk s
  | .encd, s => deviceDrawsOk s
  | .tick, s => tickDrawsOk s
  | .gadv, s => geoDrawsOk s
  | .hread _ _, _ | .sread _ _, _ | .swrite _ _ _, _ | .gpos, _ | .genc, _ => true

theorem exec_of_wellFormed {i : Instr} (hwf : i.wellFormed = true) (s : State) :
    exec i s = transact (mutates i) (instrDrawsOk i s) (execBody i) s := by
  cases i with
  | swrite a n p => exact exec_swrite_of_length (beq_iff_eq.mp hwf)
  | _ => rfl

theorem exec_of_not_wellFormed {i : Instr} (hwf : i.wellFormed ≠ true) (s : State) :
    exec i s = .refused .payloadLength := by
  cases i with
  | swrite a n p => exact if_neg fun hlen => hwf (beq_iff_eq.mpr hlen)
  | _ => exact absurd rfl hwf

theorem geoDrawsOk_iff (s : State) : geoDrawsOk s = true ↔ GeoDraws s.cfg s.draws := by
  simp [geoDrawsOk, GeoDraws]

theorem stationDrawsOk_iff (s : State) : stationDrawsOk s = true ↔ StationDraws s.cfg s.draws := by
  simp [stationDrawsOk, StationDraws, inRange, inFloatRange, and_assoc]

theorem deviceDrawsOk_iff (s : State) : deviceDrawsOk s = true ↔ DeviceDraws s.cfg s.draws := by
  simp [deviceDrawsOk, DeviceDraws, inRange, geoDrawsOk_iff, and_assoc]

theorem instrDrawsOk_iff (i : Instr) (s : State) : instrDrawsOk i s = true ↔ DrawsAdmitted s.cfg s.draws i := by
  cases i with
  | encs => exact stationDrawsOk_iff s
  | encd => exact deviceDrawsOk_iff s
  | gadv => exact geoDrawsOk_iff s
  | tick =>
    simp only [instrDrawsOk, tickDrawsOk, DrawsAdmitted]
    cases s.cfg.deviceClass
    · simp [stationDrawsOk_iff, geoDrawsOk_iff]
    · exact deviceDrawsOk_iff s
  | _ => simp [instrDrawsOk, DrawsAdmitted]

/-- An instruction answers a next state exactly where it is admitted: its body's, with its response. -/
theorem exec_next_iff {i : Instr} {s t : State} :
    exec i s = .next t ↔
      Admitted i s ∧ t = (execBody i s).state.respond (execBody i s).status (execBody i s).data := by
  by_cases hwf : i.wellFormed = true
  · rw [exec_of_wellFormed hwf, transact_next, instrDrawsOk_iff, Admitted]
    simp only [hwf, and_true, and_assoc]
  · rw [exec_of_not_wellFormed hwf]
    simp [Admitted, hwf]

theorem exists_exec_next {i : Instr} {s : State} (h : Admitted i s) : ∃ t, exec i s = .next t :=
  ⟨_, exec_next_iff.mpr ⟨h, rfl⟩⟩

/-- There is no fault, so what is not admitted is refused. -/
theorem exists_exec_refused {i : Instr} {s : State} (h : ¬ Admitted i s) : ∃ r, exec i s = .refused r := by
  cases hexec : exec i s with
  | next t => exact absurd (exec_next_iff.mp hexec).1 h
  | fault f => exact nomatch f
  | refused r => exact ⟨r, rfl⟩

/-! ### What a body changes -/

/-- The state after the counting an instruction does. -/
def countedBy (i : Instr) (s : State) : State := if encodes i then s.countEncode s.draws.inc else s

/-- The state after the advance an instruction does. -/
def movedBy (i : Instr) (s : State) : State := if moves i then s.advance s.draws.dlat s.draws.dlon else s

theorem hreadBody_state (a c : Nat) (s : State) : (hreadBody a c s).state = s := by
  unfold hreadBody
  split <;> rfl

theorem sreadBody_state (a c : Nat) (s : State) : (sreadBody a c s).state = s := by
  unfold sreadBody
  split <;> rfl

/-- A store changes registers only. -/
theorem storeWords_state (s : State) (a : Nat) (vs : List Half) :
    ∃ reg, (storeWords s a vs).1 = { s with reg := reg } := by
  obtain ⟨-, h⟩ | ⟨-, h⟩ := storeWords_cases s a vs
  · exact ⟨_, congrArg Prod.fst h⟩
  · exact ⟨s.reg, congrArg Prod.fst h⟩

/-- A tick of either class counts once and moves once (41_telemetry_encoder.md R129). -/
theorem encodeTick_state (s : State) :
    (encodeTick s).state = (s.countEncode s.draws.inc).advance s.draws.dlat s.draws.dlon := by
  unfold encodeTick
  cases s.cfg.deviceClass <;> rfl

/-- A body counts, moves and stores as the access matrix says (10_state.md R30), and does nothing else. -/
theorem execBody_state (i : Instr) (s : State) :
    ∃ reg, (stores i = false → reg = s.reg) ∧
      (execBody i s).state = { movedBy i (countedBy i s) with reg := reg } := by
  cases i with
  | hread a c => exact ⟨s.reg, fun _ => rfl, hreadBody_state _ _ s⟩
  | sread a c => exact ⟨s.reg, fun _ => rfl, sreadBody_state _ _ s⟩
  | swrite a n p =>
    obtain ⟨reg, h⟩ := storeWords_state s (addressOf s.cfg a) (p.take (countOf s.cfg n))
    exact ⟨reg, nofun, h⟩
  | tick =>
    obtain ⟨reg, h⟩ := storeWords_state (encodeTick s).state s.cfg.frameBase (encodeTick s).words
    rw [encodeTick_state] at h
    exact ⟨reg, nofun, (congrArg (fun e => (storeWords e _ _).1) (encodeTick_state s)).trans h⟩
  | _ => exact ⟨s.reg, fun _ => rfl, rfl⟩

/-- Two states agree in everything but the registers, the counters, the position and the index of free values. -/
structure SameInterfaces (s t : State) : Prop where
  cfg : t.cfg = s.cfg
  cap : t.cap = s.cap
  ctx : t.ctx = s.ctx
  draws : t.draws = s.draws
  pending : t.pending = s.pending
  turns : t.turns = s.turns
  responses : t.responses = s.responses

theorem countedBy_sameInterfaces (i : Instr) (s : State) : SameInterfaces s (countedBy i s) := by
  unfold countedBy
  split <;> constructor <;> rfl

theorem movedBy_sameInterfaces (i : Instr) (s : State) : SameInterfaces s (movedBy i s) := by
  unfold movedBy
  split <;> constructor <;> rfl

theorem execBody_sameInterfaces (i : Instr) (s : State) : SameInterfaces s (execBody i s).state := by
  obtain ⟨reg, -, h⟩ := execBody_state i s
  have hcount := countedBy_sameInterfaces i s
  have hmove := movedBy_sameInterfaces i (countedBy i s)
  rw [h]
  exact ⟨hmove.cfg.trans hcount.cfg, hmove.cap.trans hcount.cap, hmove.ctx.trans hcount.ctx,
    hmove.draws.trans hcount.draws, hmove.pending.trans hcount.pending, hmove.turns.trans hcount.turns,
    hmove.responses.trans hcount.responses⟩

theorem countedBy_of_encodes {i : Instr} (h : encodes i = true) (s : State) :
    countedBy i s = s.countEncode s.draws.inc := if_pos h

theorem countedBy_of_not_encodes {i : Instr} (h : encodes i = false) (s : State) : countedBy i s = s := by
  simp [countedBy, h]

theorem movedBy_of_not_moves {i : Instr} (h : moves i = false) (s : State) : movedBy i s = s := by
  simp [movedBy, h]

@[simp] theorem movedBy_reg (i : Instr) (s : State) : (movedBy i s).reg = s.reg := by
  unfold movedBy; split <;> rfl

@[simp] theorem movedBy_msg (i : Instr) (s : State) : (movedBy i s).msg = s.msg := by
  unfold movedBy; split <;> rfl

@[simp] theorem movedBy_ticks (i : Instr) (s : State) : (movedBy i s).ticks = s.ticks := by
  unfold movedBy; split <;> rfl

@[simp] theorem countedBy_lat (i : Instr) (s : State) : (countedBy i s).lat = s.lat := by
  unfold countedBy; split <;> rfl

@[simp] theorem countedBy_lon (i : Instr) (s : State) : (countedBy i s).lon = s.lon := by
  unfold countedBy; split <;> rfl

@[simp] theorem countedBy_freeIndex (i : Instr) (s : State) : (countedBy i s).freeIndex = s.freeIndex := by
  unfold countedBy; split <;> rfl

/-! ### What an instruction changes -/

/-- Every instruction leaves the configuration, the capacity and the interfaces, and answers its context once
(10_state.md R31). -/
theorem exec_answersOnly {i : Instr} {s t : State} (h : exec i s = .next t) :
    t.cap = s.cap ∧ ∃ status data, AnswersOnly s t ⟨s.ctx, status, data⟩ := by
  obtain ⟨-, rfl⟩ := exec_next_iff.mp h
  obtain ⟨hcfg, hcap, hctx, hdraws, hpending, hturns, hresponses⟩ := execBody_sameInterfaces i s
  refine ⟨hcap, (execBody i s).status, (execBody i s).data, hcfg, hctx, hdraws, hpending, hturns, ?_⟩
  rw [State.respond_responses, hresponses, hctx]

theorem exec_reg_of_not_stores {i : Instr} {s t : State} (h : exec i s = .next t) (hi : stores i = false) :
    t.reg = s.reg := by
  obtain ⟨-, rfl⟩ := exec_next_iff.mp h
  obtain ⟨reg, hreg, hstate⟩ := execBody_state i s
  rw [State.respond_reg, hstate, ← hreg hi]

/-- The counters are those after the counting alone: a move and a store leave them. -/
theorem exec_counters {i : Instr} {s t : State} (h : exec i s = .next t) :
    t.ticks = (countedBy i s).ticks ∧ t.msg = (countedBy i s).msg := by
  obtain ⟨-, rfl⟩ := exec_next_iff.mp h
  obtain ⟨reg, -, hstate⟩ := execBody_state i s
  simp [hstate]

theorem exec_counters_of_not_encodes {i : Instr} {s t : State} (h : exec i s = .next t) (hi : encodes i = false) :
    t.ticks = s.ticks ∧ t.msg = s.msg := by
  simpa [countedBy_of_not_encodes hi] using exec_counters h

theorem exec_position_of_not_moves {i : Instr} {s t : State} (h : exec i s = .next t) (hi : moves i = false) :
    t.lat = s.lat ∧ t.lon = s.lon ∧ t.freeIndex = s.freeIndex := by
  obtain ⟨-, rfl⟩ := exec_next_iff.mp h
  obtain ⟨reg, -, hstate⟩ := execBody_state i s
  simp [hstate, movedBy_of_not_moves hi]

/-- The increment that an encode takes lies in the range of its class (41_telemetry_encoder.md R123). -/
theorem DrawsAdmitted.inc_mem {c : Config} {d : Draws} {i : Instr} (h : DrawsAdmitted c d i) (hi : encodes i = true) :
    (incRange c i).lo ≤ d.inc ∧ d.inc ≤ (incRange c i).hi := by
  have hstation (hd : StationDraws c d) : c.stationInc.lo ≤ d.inc ∧ d.inc ≤ c.stationInc.hi := by
    obtain ⟨hlo, hhi, -⟩ := hd
    exact ⟨hlo, hhi⟩
  have hdevice (hd : DeviceDraws c d) : c.deviceInc.lo ≤ d.inc ∧ d.inc ≤ c.deviceInc.hi := by
    obtain ⟨hlo, hhi, -⟩ := hd
    exact ⟨hlo, hhi⟩
  cases i with
  | encs => exact hstation h
  | encd => exact hdevice h
  | tick =>
    cases hclass : c.deviceClass with
    | station =>
      simp only [DrawsAdmitted, hclass] at h
      simpa [incRange, hclass] using hstation h.1
    | device =>
      simp only [DrawsAdmitted, hclass] at h
      simpa [incRange, hclass] using hdevice h
  | hread | sread | swrite | gpos | gadv | genc => cases hi

theorem exec_counters_of_encodes {i : Instr} {s t : State} (h : exec i s = .next t) (hi : encodes i = true) :
    t.ticks = s.ticks + 1 ∧ t.msg = (s.msg + t.draws.inc) % 2 ^ s.cfg.msgW ∧
      (incRange s.cfg i).lo ≤ t.draws.inc ∧ t.draws.inc ≤ (incRange s.cfg i).hi := by
  obtain ⟨⟨-, -, hadmitted, -⟩, -⟩ := exec_next_iff.mp h
  obtain ⟨-, _, _, -, -, hdraws, -⟩ := exec_answersOnly h
  obtain ⟨hticks, hmsg⟩ := exec_counters h
  rw [countedBy_of_encodes hi] at hticks hmsg
  rw [hdraws]
  exact ⟨hticks, hmsg, hadmitted.inc_mem hi⟩

/-! ### What a step changes -/

theorem step_of_idle {s u : State} (h : fetch s = .idle u) : step s = .next u := by simp only [step, h]

theorem step_of_request {s u : State} {r : Request} (h : fetch s = .request r u) : step s = serve r u := by
  simp only [step, h]

theorem nextInstr_of_idle {s u : State} (h : fetch s = .idle u) : nextInstr s = none := by simp only [nextInstr, h]

theorem nextInstr_of_request {s u : State} {r : Request} {i : Instr} (h : fetch s = .request r u)
    (hi : decode r.word r.payload = .instr i) : nextInstr s = some i := by simp only [nextInstr, h, hi]

theorem nextInstr_of_illegal {s u : State} {r : Request} {why : IllegalReason} (h : fetch s = .request r u)
    (hwhy : decode r.word r.payload = .illegal why) : nextInstr s = none := by simp only [nextInstr, h, hwhy]

/-- A served request runs its instruction, or is an illegal word and only answered. -/
theorem serve_next {r : Request} {s t : State} (h : serve r s = .next t) :
    (∃ i, decode r.word r.payload = .instr i ∧ exec i s = .next t) ∨
      (∃ why, decode r.word r.payload = .illegal why ∧ t = s.respond .illegalCommand .none) := by
  unfold serve at h
  split at h
  next i hi => exact .inl ⟨i, hi, h⟩
  next why hwhy => exact .inr ⟨why, hwhy, (answerIllegal_next.mp h).2⟩
  next => cases h

theorem serve_answersOnly {r : Request} {s t : State} (h : serve r s = .next t) :
    t.cap = s.cap ∧ ∃ status data, AnswersOnly s t ⟨s.ctx, status, data⟩ := by
  obtain ⟨i, -, hexec⟩ | ⟨why, -, rfl⟩ := serve_next h
  · exact exec_answersOnly hexec
  · exact ⟨rfl, _, _, rfl, rfl, rfl, rfl, rfl, rfl⟩

/-- No step changes the capacity or the configuration (10_state.md R22, R29). -/
theorem step_cap_cfg {s t : State} (h : step s = .next t) : t.cap = s.cap ∧ t.cfg = s.cfg := by
  cases hfetch : fetch s with
  | idle u =>
    obtain ⟨turns, rfl⟩ := fetch_idle hfetch
    rw [step_of_idle hfetch] at h
    cases h
    exact ⟨rfl, rfl⟩
  | request r u =>
    obtain ⟨before, after, turns, -, rfl, -⟩ := fetch_request hfetch
    rw [step_of_request hfetch] at h
    obtain ⟨hcap, _, _, hcfg, -⟩ := serve_answersOnly h
    exact ⟨hcap, hcfg⟩

/-! ### What a read reveals -/

theorem fits_iff (s : State) (a n : Nat) : fits s a n = true ↔ a + n ≤ s.cap := decide_eq_true_iff

theorem fits_congr {s u : State} (hcap : u.cap = s.cap) (a n : Nat) : fits u a n = fits s a n := by
  simp only [fits, hcap]

theorem memRead_congr {m m' : Memory} {a n : Nat} (h : ∀ i, i < a + n → readReg m' i = readReg m i) :
    memRead m' a n = memRead m a n :=
  List.map_congr_left fun k hk => h (a + k) (by have := List.mem_range.mp hk; omega)

theorem hreadBuffer_congr {m m' : Memory} {a c : Nat}
    (h : ∀ i, i < a + registersOfBytes c → readReg m' i = readReg m i) : hreadBuffer m' a c = hreadBuffer m a c := by
  refine congrArg (BitVec.ofNat 8 c :: ·) (List.map_congr_left fun k hk => ?_)
  have hk := List.mem_range.mp hk
  simp only [hreadByte, h (a + k / 2) (by unfold registersOfBytes; omega)]

/-- The bound on the access keeps a read to registers below the capacity, where the two states agree. -/
theorem hreadBody_congr {s u : State} (hcap : u.cap = s.cap) (hreg : ∀ i, i < s.cap → readReg u.reg i = readReg s.reg i)
    (a c : Nat) : ∃ st d, hreadBody a c s = ⟨s, st, d⟩ ∧ hreadBody a c u = ⟨u, st, d⟩ := by
  unfold hreadBody
  rw [fits_congr hcap]
  split
  next hfits =>
    have hbound := (fits_iff s a _).mp hfits
    exact ⟨_, _, rfl, by rw [hreadBuffer_congr fun i hi => hreg i (by omega)]⟩
  next => exact ⟨_, _, rfl, rfl⟩

theorem sreadBody_congr {s u : State} (hcap : u.cap = s.cap) (hreg : ∀ i, i < s.cap → readReg u.reg i = readReg s.reg i)
    (a c : Nat) : ∃ st d, sreadBody a c s = ⟨s, st, d⟩ ∧ sreadBody a c u = ⟨u, st, d⟩ := by
  unfold sreadBody
  rw [fits_congr hcap]
  split
  next hfits =>
    have hbound := (fits_iff s a _).mp hfits
    exact ⟨_, _, rfl, by rw [memRead_congr fun i hi => hreg i (by omega)]⟩
  next => exact ⟨_, _, rfl, rfl⟩

/-- A transaction that mutates nothing and takes no draw answers what its body does. -/
theorem transact_of_body {body : State → Answer} {s s' : State} {st : Status} {d : ResponseData}
    (hcfg : configValid s.cfg = true) (hbody : body s = ⟨s', st, d⟩) :
    transact false true body s = .next (s'.respond st d) :=
  transact_next.mpr ⟨hcfg, nofun, rfl, by rw [hbody]⟩

/-! ### Reset -/

theorem bootReset_next_iff {c : Config} {inp : ResetInputs} {b : Booted} :
    bootReset c inp = .next b ↔ configValid c = true ∧ resetDrawOk inp = true ∧
      b = ⟨resetState c inp, (resetStore c inp.snapshot).snap⟩ := by
  unfold bootReset
  cases configValid c <;> cases resetDrawOk inp <;> simp [eq_comm]

theorem resetDrawOk_iff (inp : ResetInputs) :
    resetDrawOk inp = true ↔
      (inp.geoInit = none → fIsFinite inp.geoDraw.lat = true ∧ fIsFinite inp.geoDraw.lon = true) := by
  cases h : inp.geoInit <;> simp [resetDrawOk, h]

/-- Without a decoded snapshot the register file is the zero one of DEFAULT_CAP (40_register_store.md R107). -/
theorem resetStore_of_no_values (c : Config) {snapshot : SnapshotInput} (h : snapshotValues snapshot = none) :
    (resetStore c snapshot).cap = c.defaultCap ∧ (resetStore c snapshot).reg = [] := by
  cases snapshot with
  | notSupplied | unreadable => exact ⟨rfl, rfl⟩
  | file bytes =>
    have hdecode : decodeSnapshot bytes = none := h
    simp [resetStore, hdecode, emptyStore]

theorem resetStore_of_values (c : Config) {snapshot : SnapshotInput} {vs : List Half}
    (h : snapshotValues snapshot = some vs) : resetStore c snapshot = snapshotStore c vs := by
  cases snapshot with
  | notSupplied | unreadable => cases h
  | file bytes =>
    have hdecode : decodeSnapshot bytes = some vs := h
    simp only [resetStore, hdecode]

theorem readReg_nil (i : Nat) : readReg [] i = 0 := by
  rw [readReg, memGet_nil, memGet_nil]
  rfl

theorem readReg_snapshotStore (c : Config) {vs : List Half} {i : Nat} (hi : i < vs.length) :
    readReg (snapshotStore c vs).reg i = registerValue c vs[i] := by
  have hlen : i < (vs.map (registerValue c)).length := by rwa [List.length_map]
  have hread := readReg_memWrite_inside (a := 0) (m := []) rfl hlen
  rwa [Nat.zero_add, List.getElem_map] at hread

/-! ### A snapshot of any length -/

/-- The text of `n` more zeros and the closing bracket. -/
def moreZerosText : Nat → List Byte
  | 0 => [0x5D]
  | n + 1 => 0x2C :: 0x30 :: moreZerosText n

/-- The text of an array of `n` zeros. -/
def zerosText : Nat → List Byte
  | 0 => [0x5B, 0x5D]
  | n + 1 => 0x5B :: 0x30 :: moreZerosText n

/-- Standing after a zero, the reader ends it and reads the others. -/
theorem snapRead_moreZerosText (n : Nat) (es : List Nat) :
    snapRead ⟨.zero, es⟩ (moreZerosText n) = some ⟨.closed, List.replicate (n + 1) 0 ++ es⟩ := by
  induction n generalizing es with
  | zero => rfl
  | succ n ih =>
    calc snapRead ⟨.zero, es⟩ (moreZerosText (n + 1))
        = snapRead ⟨.zero, 0 :: es⟩ (moreZerosText n) := rfl
      _ = some ⟨.closed, List.replicate (n + 1) 0 ++ 0 :: es⟩ := ih (0 :: es)
      _ = some ⟨.closed, List.replicate (n + 1 + 1) 0 ++ es⟩ := by simp [List.replicate_succ' (n := n + 1)]

theorem snapRead_zerosText (n : Nat) : snapRead ⟨.start, []⟩ (zerosText n) = some ⟨.closed, List.replicate n 0⟩ := by
  cases n with
  | zero => rfl
  | succ n => exact (snapRead_moreZerosText n []).trans (by rw [List.append_nil])

theorem snapValues_replicate_zero (n : Nat) : snapValues (List.replicate n 0) = some (List.replicate n 0) := by
  induction n with
  | zero => rfl
  | succ n ih => simp [List.replicate_succ, snapValues, ih]

theorem decodeSnapshot_zerosText (n : Nat) : decodeSnapshot (zerosText n) = some (List.replicate n 0) := by
  simp [decodeSnapshot, snapRead_zerosText, snapValues_replicate_zero]

/-! ### Table words -/

theorem decodeBare_instr {w : Cmd} {i j : Instr} (h : decodeBare w i = .instr j) : j = i := by
  unfold decodeBare at h
  split at h <;> cases h
  rfl

theorem decodeGenc_instr {w : Cmd} {j : Instr} (h : decodeGenc w = .instr j) : j = .genc := by
  unfold decodeGenc at h
  split at h
  · cases h
  · exact decodeBare_instr h

theorem decodeSwrite_instr {w : Cmd} {p : List Half} {j : Instr} (h : decodeSwrite w p = .instr j) :
    j = .swrite (cmdA w) (cmdB w) p ∧ p.length = (cmdB w).toNat := by
  unfold decodeSwrite at h
  split at h <;> cases h
  exact ⟨rfl, ‹_›⟩

/-- What the decoder reads has the word's opcode and is well formed. -/
theorem decode_instr {w : Cmd} {p : List Half} {i : Instr} (h : decode w p = .instr i) :
    cmdOp w = cmdOp (encodeWord i) ∧ i.wellFormed = true := by
  have hop {k : Nat} (hk : (cmdOp w).toNat = k) : cmdOp w = BitVec.ofNat 4 k := by
    rw [← hk, BitVec.ofNat_toNat, BitVec.setWidth_eq]
  unfold decode at h
  split at h
  next hk => cases h; exact ⟨(hop hk).trans (cmdOp_cmdWord _ _ _).symm, rfl⟩
  next hk => cases h; exact ⟨(hop hk).trans (cmdOp_cmdWord _ _ _).symm, rfl⟩
  next hk =>
    obtain ⟨rfl, hlen⟩ := decodeSwrite_instr h
    exact ⟨(hop hk).trans (cmdOp_cmdWord _ _ _).symm, beq_iff_eq.mpr hlen⟩
  next hk => obtain rfl := decodeBare_instr h; exact ⟨hop hk, rfl⟩
  next hk => obtain rfl := decodeBare_instr h; exact ⟨hop hk, rfl⟩
  next hk => obtain rfl := decodeBare_instr h; exact ⟨hop hk, rfl⟩
  next hk => obtain rfl := decodeBare_instr h; exact ⟨hop hk, rfl⟩
  next hk => obtain rfl := decodeBare_instr h; exact ⟨hop hk, rfl⟩
  next hk => obtain rfl := decodeGenc_instr h; exact ⟨hop hk, rfl⟩
  next => cases h

theorem decodeTableWord_some {nbits w : Nat} {i : Instr} (h : decodeTableWord nbits w = some i) :
    ∃ word payload, tableWord nbits w = some (word, payload) ∧ decode word payload = .instr i := by
  unfold decodeTableWord at h
  split at h
  · cases h
  next word payload hword =>
    refine ⟨word, payload, hword, ?_⟩
    split at h <;> cases h
    assumption

/-- A delta of +0.0 is within every step that is a number. -/
theorem leastDraws_geo {c : Config} (hc : configValid c = true) (station : Bool) :
    GeoDraws c (leastDraws c station) := by
  obtain ⟨-, -, -, -, hgeo, -⟩ := (admittedConfigurationsAreThoseOfTheScope c).mp hc
  have hzero : fAbsLe 0 c.geoStep = true := by
    have hnan : fIsNaN 0 = false := by decide
    have hmag : fMagnitude 0 = 0 := by decide
    simp only [fAbsLe, fIsNaN_of_finite hgeo, hnan, hmag, Nat.zero_le, decide_true, Bool.not_false, Bool.and_self]
  exact ⟨hzero, hzero⟩

theorem leastDraws_station {c : Config} (hc : configValid c = true) : StationDraws c (leastDraws c true) := by
  obtain ⟨⟨hinc, -, hcnt, hsig, -⟩, ⟨hlo, hhi, hlq⟩, -⟩ := (admittedConfigurationsAreThoseOfTheScope c).mp hc
  exact ⟨le_rfl, hinc.1, le_rfl, hcnt.1, le_rfl, hsig.1, (fLe_iff_of_finite hlo hlo).mpr le_rfl,
    (fLe_iff_of_finite hlo hhi).mpr hlq⟩

theorem leastDraws_device {c : Config} (hc : configValid c = true) : DeviceDraws c (leastDraws c false) := by
  obtain ⟨⟨-, hinc, -, -, hlq⟩, -⟩ := (admittedConfigurationsAreThoseOfTheScope c).mp hc
  exact ⟨le_rfl, hinc.1, le_rfl, hlq.1, leastDraws_geo hc false⟩

/-- The draws placed with an instruction's word are those the instruction admits. -/
theorem drawsAdmitted_leastDraws {c : Config} (hc : configValid c = true) {i : Instr} {w : Cmd}
    (hop : cmdOp w = cmdOp (encodeWord i)) : DrawsAdmitted c (leastDraws c (takesStationDraws c w)) i := by
  unfold takesStationDraws
  rw [hop]
  cases i with
  | encs => exact leastDraws_station hc
  | encd => exact leastDraws_device hc
  | gadv => exact leastDraws_geo hc _
  | tick =>
    cases hclass : c.deviceClass with
    | station =>
      simp only [DrawsAdmitted, hclass]
      exact ⟨leastDraws_station hc, leastDraws_geo hc _⟩
    | device =>
      simp only [DrawsAdmitted, hclass]
      exact leastDraws_device hc
  | hread | sread | swrite | gpos | genc => trivial

/-- Every mutating opcode is placed as the tick context's. -/
theorem issuerOf_of_mutates {i : Instr} (hi : mutates i = true) {w : Cmd} (hop : cmdOp w = cmdOp (encodeWord i)) :
    issuerOf w = .tick := by
  unfold issuerOf
  rw [hop]
  cases i with
  | hread | sread | gpos | genc => cases hi
  | swrite a n p => simp [encodeWord]
  | encs | encd | tick | gadv => rfl

theorem admitted_tableRequest {s : State} (hc : configValid s.cfg = true) {i : Instr} {w : Cmd} {p : List Half}
    (h : decode w p = .instr i) (pending : List Request) (turns : List Context) :
    Admitted i (s.accept (tableRequest s.cfg w p) pending turns) := by
  obtain ⟨hop, hwf⟩ := decode_instr h
  exact ⟨hc, fun hi => issuerOf_of_mutates hi hop, drawsAdmitted_leastDraws hc hop, hwf⟩

/-- A placed request is fetched next, and taking it leaves the other requests and turns as they were. -/
theorem fetch_placeRequest (s : State) (r : Request) :
    fetch (s.placeRequest r) = .request r (s.accept r s.pending s.turns) := by
  simp only [fetch, State.placeRequest_turns, State.placeRequest_pending, takeOf, if_true]
  rfl

/-! ### The obligations -/

/-- Settles O9: the request leaves the pending ones when it is taken, and serving it answers its context once. -/
theorem everyRequestGetsOneResponse : Obligations.EveryRequestGetsOneResponse := by
  refine fun s t hstep => ⟨fun r u hfetch => ?served, fun u hfetch => ?idle⟩
  case served =>
    obtain ⟨before, after, turns, hpending, rfl, -⟩ := fetch_request hfetch
    rw [step_of_request hfetch] at hstep
    obtain ⟨-, status, data, -, -, -, htaken, -, hresponses⟩ := serve_answersOnly hstep
    refine ⟨?_, status, data, hresponses⟩
    rw [htaken, hpending, State.accept_pending]
    simp only [List.length_append, List.length_cons]
    omega
  case idle =>
    obtain ⟨turns, rfl⟩ := fetch_idle hfetch
    rw [step_of_idle hfetch] at hstep
    cases hstep
    exact ⟨rfl, rfl⟩

/-- Settles O14: the frame of the one transaction, and a mutating opcode is admitted from the tick context only. -/
theorem writesFollowTheAccessMatrix : Obligations.WritesFollowTheAccessMatrix := by
  refine ⟨fun i s t h => ?frame, fun i s k hctx hi => exists_exec_refused fun hadmitted => ?readContext⟩
  case frame =>
    obtain ⟨hcap, status, data, hcfg, hctx, hdraws, hpending, hturns, hresponses⟩ := exec_answersOnly h
    exact ⟨hcfg, hcap, hctx, hdraws, hpending, hturns, ⟨_, hresponses⟩, exec_reg_of_not_stores h,
      fun hi => (exec_counters_of_not_encodes h hi).symm, exec_position_of_not_moves h⟩
  case readContext =>
    obtain ⟨-, htick, -⟩ := hadmitted
    exact absurd (hctx.symm.trans (htick hi)) nofun

/-- Settles O27: what a step does to the counters is what its instruction does; an idle step and an illegal word run
none. -/
theorem onlyEncodesMoveTheCounters : Obligations.OnlyEncodesMoveTheCounters := by
  intro s t hstep
  cases hfetch : fetch s with
  | idle u =>
    obtain ⟨turns, rfl⟩ := fetch_idle hfetch
    rw [step_of_idle hfetch] at hstep
    cases hstep
    rw [nextInstr_of_idle hfetch]
    exact ⟨nofun, fun _ => ⟨rfl, rfl⟩⟩
  | request r u =>
    obtain ⟨before, after, turns, -, rfl, -⟩ := fetch_request hfetch
    rw [step_of_request hfetch] at hstep
    obtain ⟨i, hi, hexec⟩ | ⟨why, hwhy, rfl⟩ := serve_next hstep
    · rw [nextInstr_of_request hfetch hi]
      have hmove := exec_counters_of_encodes hexec
      have hkeep := exec_counters_of_not_encodes hexec
      exact ⟨fun j hj => Option.some.inj hj ▸ hmove, fun hnone => hkeep (hnone i rfl)⟩
    · rw [nextInstr_of_illegal hfetch hwhy]
      exact ⟨nofun, fun _ => ⟨rfl, rfl⟩⟩

/-- Settles O40: an array of `n` zeros is a snapshot of length `n`, and every step keeps the capacity. -/
theorem capacityIsSetAtResetOnly : Obligations.CapacityIsSetAtResetOnly := by
  refine ⟨fun c inp b hboot => ?reset, rfl,
    fun n => ⟨zerosText n, _, decodeSnapshot_zerosText n, List.length_replicate⟩, fun s t => step_cap_cfg⟩
  case reset =>
    obtain ⟨-, -, rfl⟩ := bootReset_next_iff.mp hboot
    refine ⟨fun vs hvs => ?values, fun hnone => ?noValues⟩
    case values => exact congrArg Store.cap (resetStore_of_values c hvs)
    case noValues =>
      obtain ⟨hcap, -⟩ := resetStore_of_no_values c hnone
      exact hcap

/-- Settles O43: the operands stand for the same numbers in both states, and the bodies of the reads answer alike. -/
theorem readsRevealOnlyTheRegisters : Obligations.ReadsRevealOnlyTheRegisters := by
  intro s u a c hs hu haddr hcnt hcap hreg
  have ha : addressOf u.cfg a = addressOf s.cfg a := by simp only [addressOf, haddr]
  have hc : countOf u.cfg c = countOf s.cfg c := by simp only [countOf, hcnt]
  constructor
  · obtain ⟨st, d, hbody, hbody'⟩ := hreadBody_congr hcap hreg (addressOf s.cfg a) (countOf s.cfg c)
    rw [← ha, ← hc] at hbody'
    exact ⟨st, d, transact_of_body hs hbody, transact_of_body hu hbody'⟩
  · obtain ⟨st, d, hbody, hbody'⟩ := sreadBody_congr hcap hreg (addressOf s.cfg a) (countOf s.cfg c)
    rw [← ha, ← hc] at hbody'
    exact ⟨st, d, transact_of_body hs hbody, transact_of_body hu hbody'⟩

/-- Settles O44: the register file of reset by its two cases, the rest by the definition of the state reset leaves. -/
theorem resetLeavesTheSpecState : Obligations.ResetLeavesTheSpecState := by
  intro c inp hc hdraw
  refine ⟨_, bootReset_next_iff.mpr ⟨hc, (resetDrawOk_iff inp).mpr hdraw, rfl⟩, rfl, rfl, rfl, fun p hp => ?point,
    fun hnone => ?draw, fun hnone => ?zeros, fun vs hvs => ?values⟩
  case point => simp [resetState, resetPosition, hp]
  case draw => simp [resetState, resetPosition, hnone]
  case zeros =>
    obtain ⟨hcap, hreg⟩ := resetStore_of_no_values c hnone
    exact ⟨hcap, fun i => by rw [resetState, hreg, readReg_nil]⟩
  case values =>
    have hstore := resetStore_of_values c hvs
    refine ⟨congrArg Store.cap hstore, fun i hi hfits => ?_⟩
    rw [resetState, hstore, readReg_snapshotStore c hi, registerValue_of_lt hfits]

/-- Settles O49: the placed request is fetched next and admitted, so its instruction answers. -/
theorem placedTableWordRunsNext : Obligations.PlacedTableWordRunsNext := by
  intro s nbits w i hdecode hc
  obtain ⟨word, payload, hword, hi⟩ := decodeTableWord_some hdecode
  obtain ⟨t, hexec⟩ := exists_exec_next (admitted_tableRequest hc hi s.pending s.turns)
  have hplaced : s.withFetchWord nbits w = s.placeRequest (tableRequest s.cfg word payload) := by
    simp only [State.withFetchWord, hword]
  have hserve (u : State) : serve (tableRequest s.cfg word payload) u = exec i u := by
    simp only [serve, tableRequest, hi]
  refine ⟨word, payload, t, hword, hi, ?_, hexec⟩
  rw [hplaced, step_of_request (fetch_placeRequest s _), hserve]

end Sys2Proof.Machine
end

section
/-!
PROOFS. The statements about 20_memory.md: what every step keeps of the registers (R50), a register's two bytes (R52),
the order of the requests and what a register holds after a run (R56), and that reads repeat (R60).

Whatever a step does to the registers is the writes it shows at the interfaces, each within the capacity and the width
of a register (`step_storesWrites`). The invariant and the last write that a register holds both follow from this fact.
-/

namespace Sys2Proof.Machine

/-! ### Registers after writes -/

/-- What a register holds after a write of several: the word for it, or what it held. -/
theorem readReg_memWrite {m : Memory} (hm : Memory.wf m = true) (a : Nat) (vs : List Half) (i : Nat) :
    readReg (memWrite m a vs) i =
      if a ≤ i ∧ i < a + vs.length then vs.getD (i - a) (readReg m i) else readReg m i := by
  split
  next h =>
    obtain ⟨k, rfl⟩ := Nat.exists_eq_add_of_le h.1
    have hk : k < vs.length := by omega
    rw [readReg_memWrite_inside hm hk, Nat.add_sub_cancel_left, List.getD_eq_getElem _ _ hk]
  next h => exact readReg_memWrite_outside m vs (by omega)

/-- Canonical memories with the same registers are the same. -/
theorem mem_ext_readReg {m n : Memory} (hm : Memory.wf m = true) (hn : Memory.wf n = true)
    (h : ∀ i, readReg m i = readReg n i) : m = n :=
  mem_ext hm hn fun a => by rw [memGet_eq_readReg m, memGet_eq_readReg n, h]

/-- The same write again changes nothing (20_memory.md R60). -/
theorem memWrite_memWrite_same {m : Memory} (hm : Memory.wf m = true) (a : Nat) (vs : List Half) :
    memWrite (memWrite m a vs) a vs = memWrite m a vs := by
  have hwf := memWrite_wf a vs hm
  refine mem_ext_readReg (memWrite_wf a vs hwf) hwf fun i => ?_
  by_cases hi : a ≤ i ∧ i < a + vs.length
  · have hk : i - a < vs.length := by omega
    simp only [readReg_memWrite hwf, readReg_memWrite hm, if_pos hi, List.getD_eq_getElem _ _ hk]
  · rw [readReg_memWrite hwf, if_neg hi]

/-- A register file as the invariant asks for it. -/
structure RegistersOk (c : Config) (cap : Nat) (m : Memory) : Prop where
  wf : Memory.wf m = true
  within : memWithin cap m = true
  width : ∀ i, (readReg m i).toNat < 2 ^ c.regW

theorem invariant_iff (s : State) : Invariant s ↔ RegistersOk s.cfg s.cap s.reg ∧ s.msg < 2 ^ s.cfg.msgW :=
  ⟨fun ⟨hwf, hwithin, hwidth, hmsg⟩ => ⟨⟨hwf, hwithin, hwidth⟩, hmsg⟩,
    fun ⟨⟨hwf, hwithin, hwidth⟩, hmsg⟩ => ⟨hwf, hwithin, hwidth, hmsg⟩⟩

theorem RegistersOk.memWrite {c : Config} {cap a : Nat} {m : Memory} {vs : List Half} (h : RegistersOk c cap m)
    (hcap : a + vs.length ≤ cap) (hwidth : WordsFit c vs) : RegistersOk c cap (memWrite m a vs) where
  wf := memWrite_wf a vs h.wf
  within := memWrite_within h.within hcap
  width i := by
    rw [readReg_memWrite h.wf]
    split
    next hi =>
      rw [List.getD_eq_getElem _ _ (by omega)]
      exact hwidth _ (List.getElem_mem _)
    next => exact h.width i

/-! ### The writes seen at the interfaces -/

/-- The register file after the writes, in their order. -/
def applyWrites (m : Memory) (ws : List SeenWrite) : Memory := ws.foldl (fun m w => memWrite m w.first w.words) m

theorem applyWrites_wf {m : Memory} (hm : Memory.wf m = true) (ws : List SeenWrite) :
    Memory.wf (applyWrites m ws) = true := by
  induction ws generalizing m with
  | nil => exact hm
  | cons w ws ih => exact ih (memWrite_wf _ _ hm)

theorem readReg_applyWrites {m : Memory} (hm : Memory.wf m = true) (ws : List SeenWrite) (i : Nat) :
    readReg (applyWrites m ws) i = lastWritten i (readReg m i) ws := by
  induction ws generalizing m with
  | nil => rfl
  | cons w ws ih =>
    calc readReg (applyWrites m (w :: ws)) i
        = lastWritten i (readReg (memWrite m w.first w.words) i) ws := ih (memWrite_wf _ _ hm)
      _ = lastWritten i (readReg m i) (w :: ws) := by rw [readReg_memWrite hm]; rfl

theorem lastWritten_append (i : Nat) (v : Half) (ws ws' : List SeenWrite) :
    lastWritten i v (ws ++ ws') = lastWritten i (lastWritten i v ws) ws' := List.foldl_append

/-- The writes turn the registers of `s` into `reg`, and each stays within the capacity and the registers' width. -/
structure StoresWrites (s : State) (reg : Memory) (ws : List SeenWrite) : Prop where
  reg_eq : reg = applyWrites s.reg ws
  within : ∀ w ∈ ws, w.first + w.words.length ≤ s.cap
  width : ∀ w ∈ ws, WordsFit s.cfg w.words

theorem storesWrites_nil (s : State) : StoresWrites s s.reg [] := ⟨rfl, nofun, nofun⟩

theorem StoresWrites.registersOk {s : State} {reg : Memory} {ws : List SeenWrite} (h : StoresWrites s reg ws)
    (hs : RegistersOk s.cfg s.cap s.reg) : RegistersOk s.cfg s.cap reg := by
  rw [h.reg_eq, applyWrites]
  exact List.foldlRecOn ws _ hs fun m hm w hw => hm.memWrite (h.within w hw) (h.width w hw)

/-- A store shows one write where it answers OK and none where it does not (40_register_store.md R102). -/
theorem storeWords_storesWrites (s : State) (a : Nat) (vs : List Half) :
    StoresWrites s (storeWords s a vs).1.reg
      (if (storeWords s a vs).2 = .ok then [⟨a, vs.map (registerValue s.cfg)⟩] else []) := by
  obtain ⟨hfits, h⟩ | ⟨-, h⟩ := storeWords_cases s a vs
  · rw [h, if_pos rfl]
    refine ⟨rfl, fun w hw => ?_, fun w hw => ?_⟩ <;> obtain rfl := List.mem_singleton.mp hw
    · rwa [List.length_map]
    · exact wordsFit_map_registerValue s.cfg vs
  · rw [h, if_neg nofun]
    exact storesWrites_nil s

theorem writeSeen_swrite (c : Config) (a n : Half) (p : List Half) (ctx : Context) (st : Status) (d : ResponseData) :
    writeSeen c (.swrite a n p) ⟨ctx, st, d⟩ =
      if st = .ok then [⟨addressOf c a, (p.take (countOf c n)).map (registerValue c)⟩] else [] := by
  cases st <;> rfl

theorem writeSeen_tick (c : Config) (ctx : Context) (st : Status) (ws : List Half) :
    writeSeen c .tick ⟨ctx, st, .words ws⟩ = if st = .ok then [⟨c.frameBase, ws.map (registerValue c)⟩] else [] := by
  cases st <;> rfl

theorem writeSeen_of_not_stores {i : Instr} (hi : stores i = false) (c : Config) (r : Response) :
    writeSeen c i r = [] := by
  cases i with
  | swrite | tick => cases hi
  | _ => rfl

/-- A tick stores after its one count and its one advance (41_telemetry_encoder.md R129). -/
theorem execBody_tick (s : State) :
    execBody .tick s =
      ⟨(storeWords (movedBy .tick (countedBy .tick s)) s.cfg.frameBase (encodeTick s).words).1,
        (storeWords (movedBy .tick (countedBy .tick s)) s.cfg.frameBase (encodeTick s).words).2,
        .words (encodeTick s).words⟩ := by
  simp only [execBody, tickBody, encodeTick_state]
  rfl

/-- What an instruction does to the registers is the write its response shows. -/
theorem execBody_storesWrites (i : Instr) (s : State) (ctx : Context) :
    StoresWrites s (execBody i s).state.reg (writeSeen s.cfg i ⟨ctx, (execBody i s).status, (execBody i s).data⟩) := by
  cases hi : stores i with
  | false =>
    obtain ⟨reg, hreg, hstate⟩ := execBody_state i s
    rw [writeSeen_of_not_stores hi, hstate, hreg hi]
    exact storesWrites_nil s
  | true =>
    cases i with
    | swrite a n p =>
      rw [writeSeen_swrite]
      exact storeWords_storesWrites s _ _
    | tick =>
      rw [execBody_tick, writeSeen_tick]
      obtain ⟨hreg, hwithin, hwidth⟩ :=
        storeWords_storesWrites (movedBy .tick (countedBy .tick s)) s.cfg.frameBase (encodeTick s).words
      exact ⟨hreg, hwithin, hwidth⟩
    | _ => cases hi

theorem exec_storesWrites {i : Instr} {s t : State} (h : exec i s = .next t) :
    ∃ r, t.responses = s.responses ++ [r] ∧ StoresWrites s t.reg (writeSeen s.cfg i r) := by
  obtain ⟨-, rfl⟩ := exec_next_iff.mp h
  have hsame := execBody_sameInterfaces i s
  exact ⟨_, by rw [State.respond_responses, hsame.responses], execBody_storesWrites i s _⟩

theorem stepWrites_of_instr {s t : State} {i : Instr} {pre : List Response} {r : Response} (hi : nextInstr s = some i)
    (h : step s = .next t) (hr : t.responses = pre ++ [r]) : stepWrites s = writeSeen s.cfg i r := by
  simp only [stepWrites, hi, h, hr, List.getLast?_concat]

theorem stepWrites_of_no_instr {s : State} (hi : nextInstr s = none) : stepWrites s = [] := by
  simp only [stepWrites, hi]

/-- What a step does to the registers is the write it shows; an idle step and an illegal word show none. -/
theorem step_storesWrites {s t : State} (h : step s = .next t) : StoresWrites s t.reg (stepWrites s) := by
  have hstep := h
  cases hfetch : fetch s with
  | idle u =>
    obtain ⟨turns, rfl⟩ := fetch_idle hfetch
    rw [step_of_idle hfetch] at h
    cases h
    rw [stepWrites_of_no_instr (nextInstr_of_idle hfetch)]
    exact storesWrites_nil s
  | request r u =>
    obtain ⟨before, after, turns, -, rfl, -⟩ := fetch_request hfetch
    rw [step_of_request hfetch] at h
    obtain ⟨i, hi, hexec⟩ | ⟨why, hwhy, rfl⟩ := serve_next h
    · obtain ⟨r', hr', hreg, hwithin, hwidth⟩ := exec_storesWrites hexec
      rw [stepWrites_of_instr (nextInstr_of_request hfetch hi) hstep hr']
      exact ⟨hreg, hwithin, hwidth⟩
    · rw [stepWrites_of_no_instr (nextInstr_of_illegal hfetch hwhy)]
      exact storesWrites_nil s

/-- Every step keeps the message counter below 2^MSG_W (10_state.md R24). -/
theorem step_msg_lt {s t : State} (hmsg : s.msg < 2 ^ s.cfg.msgW) (h : step s = .next t) : t.msg < 2 ^ s.cfg.msgW := by
  obtain ⟨hencodes, hothers⟩ := onlyEncodesMoveTheCounters s t h
  by_cases hi : ∃ i, nextInstr s = some i ∧ encodes i = true
  · obtain ⟨i, hi, henc⟩ := hi
    obtain ⟨-, hmod, -⟩ := hencodes i hi henc
    exact hmod ▸ Nat.mod_lt _ (Nat.two_pow_pos _)
  · obtain ⟨-, hsame⟩ := hothers fun i hnext => Bool.eq_false_iff.mpr fun henc => hi ⟨i, hnext, henc⟩
    exact hsame ▸ hmsg

/-! ### Runs -/

theorem run_succ_of_step {s u : State} (h : step s = .next u) (n : Nat) :
    Host.Core.run Sys2Proof.core (n + 1) s = Host.Core.run Sys2Proof.core n u := by
  simp only [Host.Core.run, Sys2Proof.core, h]

theorem run_succ_next {n : Nat} {s t : State} (h : Host.Core.run Sys2Proof.core (n + 1) s = .next t) :
    ∃ u, step s = .next u ∧ Host.Core.run Sys2Proof.core n u = .next t := by
  cases hstep : step s with
  | next u => exact ⟨u, rfl, run_succ_of_step hstep n ▸ h⟩
  | fault f => exact nomatch f
  | refused r => simp [Host.Core.run, Sys2Proof.core, hstep] at h

theorem run_two {s u t : State} (hs : step s = .next u) (hu : step u = .next t) :
    Host.Core.run Sys2Proof.core 2 s = .next t := by
  rw [run_succ_of_step hs, run_succ_of_step hu]
  rfl

theorem runWrites_succ_of_step {s u : State} (h : step s = .next u) (n : Nat) :
    runWrites (n + 1) s = stepWrites s ++ runWrites n u := by simp only [runWrites, h]

/-! ### Which request is served -/

theorem fetch_of_no_turn {s : State} {r : Request} {rest : List Request} (hturns : s.turns = [])
    (hpending : s.pending = r :: rest) : fetch s = .request r (s.accept r rest []) := by
  simp only [fetch, hturns, hpending]

theorem fetch_of_turn {s : State} {r : Request} {before after : List Request} {turns : List Context}
    (hturns : s.turns = r.ctx :: turns) (hpending : s.pending = before ++ r :: after)
    (hbefore : ∀ q ∈ before, q.ctx ≠ r.ctx) : fetch s = .request r (s.accept r (before ++ after) turns) := by
  have htake : takeOf r.ctx s.pending = some (r, before ++ after) :=
    takeOf_some.mpr ⟨before, after, hpending, rfl, rfl, hbefore⟩
  simp only [fetch, hturns, htake]

theorem step_of_instr {s u : State} {r : Request} {i : Instr} (hfetch : fetch s = .request r u)
    (hi : decode r.word r.payload = .instr i) : step s = exec i u := by
  simp only [step_of_request hfetch, serve, hi]

/-! ### Reads and repeated writes -/

/-- A read answers the same on the same registers, capacity and parameters, and changes nothing. -/
theorem exec_read_congr {i : Instr} {a c : Half} {s u : State} (hi : i = .hread a c ∨ i = .sread a c)
    (hvalid : configValid s.cfg = true) (hcfg : u.cfg = s.cfg) (hcap : u.cap = s.cap) (hreg : u.reg = s.reg) :
    ∃ st d, exec i s = .next (s.respond st d) ∧ exec i u = .next (u.respond st d) := by
  obtain ⟨hhread, hsread⟩ := readsRevealOnlyTheRegisters s u a c hvalid (hcfg ▸ hvalid) (congrArg Config.addrW hcfg)
    (congrArg Config.cntW hcfg) hcap fun _ _ => by rw [hreg]
  obtain rfl | rfl := hi
  · exact hhread
  · exact hsread

/-- An opcode that a read context may issue writes nothing (10_state.md R30). -/
theorem not_stores_encodes_moves_of_not_mutates {i : Instr} (hi : mutates i = false) :
    stores i = false ∧ encodes i = false ∧ moves i = false := by
  cases i with
  | hread | sread | gpos | genc => exact ⟨rfl, rfl, rfl⟩
  | _ => cases hi

theorem storeWords_reg (s : State) (a : Nat) (vs : List Half) :
    (storeWords s a vs).1.reg =
      if a + vs.length ≤ s.cap then memWrite s.reg a (vs.map (registerValue s.cfg)) else s.reg := by
  obtain ⟨hfits, h⟩ | ⟨hfits, h⟩ := storeWords_cases s a vs
  · rw [h, if_pos hfits]
    rfl
  · rw [h, if_neg (by omega)]

theorem exec_swrite_reg {a n : Half} {p : List Half} {s t : State} (h : exec (.swrite a n p) s = .next t) :
    t.reg = (storeWords s (addressOf s.cfg a) (p.take (countOf s.cfg n))).1.reg := by
  obtain ⟨-, rfl⟩ := exec_next_iff.mp h
  rfl

/-! ### The words of a station frame -/

theorem pairWords_be16_append (v : Half) (bs : List Byte) : pairWords (be16 v ++ bs) = v :: pairWords bs :=
  congrArg (· :: pairWords bs) (ofBytes_high_low v)

/-- Two bytes of a binary64 pattern that stand side by side are a word of it. -/
theorem ofBytes_extractLsb' (x : F64) (k : Nat) :
    ofBytes (x.extractLsb' (k + 8) 8) (x.extractLsb' k 8) = x.extractLsb' k 16 := by
  apply BitVec.eq_of_toNat_eq
  simp only [ofBytes_toNat, BitVec.extractLsb'_toNat, Nat.shiftRight_eq_div_pow, Nat.pow_add, ← Nat.div_div_eq_div_mul]
  omega

/-- A binary64 field is four words, most significant first (20_memory.md R53). -/
theorem pairWords_be64_append (x : F64) (bs : List Byte) : pairWords (be64 x ++ bs) = floatWords x ++ pairWords bs := by
  simp only [be64, floatWords, List.cons_append, List.nil_append, pairWords]
  rw [ofBytes_extractLsb' x 48, ofBytes_extractLsb' x 32, ofBytes_extractLsb' x 16, ofBytes_extractLsb' x 0]

/-- The default layout sets the fields side by side, and the zeros stand after them (41_telemetry_encoder.md R124). -/
theorem stationFrame_of_default {c : Config} (hc : DefaultFrames c) (st : Byte) (msg : Half) (d : Draws) :
    stationFrame c st msg d =
      st :: 0 :: (be16 msg ++ (be16 (BitVec.ofNat 16 d.cnt) ++ (be16 (BitVec.ofNat 16 d.sig) ++
        (be64 d.stationLq ++ List.replicate 24 0)))) := by
  obtain ⟨hlayout, -, horder, hbytes, -⟩ := hc
  simp only [stationFrame, hlayout, horder, hbytes]
  rfl

theorem ofBytes_connectionStatus (ticks period : Nat) (b : Bool) :
    ofBytes (connectionStatus ticks period b) 0 = statusWord ticks period b := by
  unfold connectionStatus statusWord
  split <;> rfl

/-- Under the spec's MSG_W the counter stands in its frame field as it is. -/
theorem counterField_nextMsg {s : State} (hmsgW : s.cfg.msgW = 16) :
    counterField (s.countEncode s.draws.inc).msg = BitVec.ofNat 16 (nextMsg s) := by
  refine counterField_of_lt ?_
  have hlt : (s.countEncode s.draws.inc).msg < 2 ^ s.cfg.msgW := addMsg_lt _ _ _
  rwa [hmsgW] at hlt

/-- Under the default layout and MSG_W a station encode gives the words of R124. -/
theorem encodeStation_words {s : State} (hframes : DefaultFrames s.cfg) (hmsgW : s.cfg.msgW = 16) :
    (encodeStation s).words = stationWords s := by
  calc (encodeStation s).words
      = pairWords (stationFrame s.cfg (connectionStatus (s.ticks + 1) s.cfg.stationDropPeriod s.draws.b)
          (counterField (s.countEncode s.draws.inc).msg) s.draws) := rfl
    _ = stationWords s := by
        rw [stationFrame_of_default hframes, counterField_nextMsg hmsgW, pairWords, ofBytes_connectionStatus,
          pairWords_be16_append, pairWords_be16_append, pairWords_be16_append, pairWords_be64_append]
        rfl

theorem exec_tick_reg {s t : State} (h : exec .tick s = .next t)
    (hfits : s.cfg.frameBase + (encodeTick s).words.length ≤ s.cap) :
    t.reg = memWrite s.reg s.cfg.frameBase ((encodeTick s).words.map (registerValue s.cfg)) := by
  obtain ⟨-, rfl⟩ := exec_next_iff.mp h
  rw [State.respond_reg, execBody_tick, storeWords_reg]
  exact if_pos hfits

/-! ### A read and a tick pending together -/

theorem decode_tick (p : List Half) : decode 0x600000000 p = .instr .tick := rfl

theorem decode_encodeWord_read {i : Instr} {a c : Half} (hi : i = .hread a c ∨ i = .sread a c) (p : List Half) :
    decode (encodeWord i) p = .instr i := by
  obtain rfl | rfl := hi <;> simp [decode, encodeWord]

/-- The state with other requests, turns and responses at its interfaces. -/
def State.withQueues (s : State) (pending : List Request) (turns : List Context) (responses : List Response) : State :=
  { s with pending := pending, turns := turns, responses := responses }

@[simp] theorem State.withQueues_cfg (s : State) (ps : List Request) (ts : List Context) (rs : List Response) :
    (s.withQueues ps ts rs).cfg = s.cfg := rfl

theorem storeWords_withQueues (s : State) (ps : List Request) (ts : List Context) (rs : List Response) (a : Nat)
    (vs : List Half) : storeWords (s.withQueues ps ts rs) a vs =
      ((storeWords s a vs).1.withQueues ps ts rs, (storeWords s a vs).2) := by
  unfold storeWords
  rw [fits_congr (s := s) (u := s.withQueues ps ts rs) rfl]
  split <;> rfl

theorem encodeTick_withQueues (s : State) (ps : List Request) (ts : List Context) (rs : List Response) :
    encodeTick (s.withQueues ps ts rs) = ⟨(encodeTick s).state.withQueues ps ts rs, (encodeTick s).words⟩ := by
  simp only [encodeTick, State.withQueues_cfg]
  cases s.cfg.deviceClass <;> rfl

/-- A tick does not read the requests, the turns or the responses. -/
theorem exec_tick_withQueues {s : State} (h : Admitted .tick s) (ps : List Request) (ts : List Context)
    (rs : List Response) : exec .tick (s.withQueues ps ts rs) =
      .next (((execBody .tick s).state.withQueues ps ts rs).respond (execBody .tick s).status
        (execBody .tick s).data) := by
  refine exec_next_iff.mpr ⟨h, ?_⟩
  simp only [execBody, tickBody, encodeTick_withQueues, storeWords_withQueues, State.withQueues_cfg]

/-- A tick served in its turn leaves what it leaves without the queues. -/
theorem step_tick_of_turn {s s' : State} {r : Request} {before after : List Request} {turns : List Context}
    (hword : r.word = 0x600000000) (hturns : s.turns = r.ctx :: turns) (hpending : s.pending = before ++ r :: after)
    (hbefore : ∀ q ∈ before, q.ctx ≠ r.ctx) (hadmitted : Admitted .tick s')
    (haccept : s.accept r (before ++ after) turns = s'.withQueues (before ++ after) turns s.responses) :
    step s = .next (((execBody .tick s').state.withQueues (before ++ after) turns s.responses).respond
      (execBody .tick s').status (execBody .tick s').data) := by
  rw [step_of_instr (fetch_of_turn hturns hpending hbefore) (hword ▸ decode_tick r.payload), haccept]
  exact exec_tick_withQueues hadmitted _ _ _

/-- A read served in its turn answers as on any state with the same registers, capacity and parameters. -/
theorem step_read_of_turn {s s' : State} {r : Request} {i : Instr} {a c : Half} {before after : List Request}
    {turns : List Context} (hi : i = .hread a c ∨ i = .sread a c) (hword : r.word = encodeWord i)
    (hturns : s.turns = r.ctx :: turns) (hpending : s.pending = before ++ r :: after)
    (hbefore : ∀ q ∈ before, q.ctx ≠ r.ctx) (hvalid : configValid s'.cfg = true) (hcfg : s.cfg = s'.cfg)
    (hcap : s.cap = s'.cap) (hreg : s.reg = s'.reg) :
    ∃ st d, exec i s' = .next (s'.respond st d) ∧
      step s = .next ((s.accept r (before ++ after) turns).respond st d) := by
  obtain ⟨st, d, hexec, hserved⟩ := exec_read_congr (u := s.accept r (before ++ after) turns) hi hvalid hcfg hcap hreg
  exact ⟨st, d, hexec, (step_of_instr (fetch_of_turn hturns hpending hbefore)
    (hword ▸ decode_encodeWord_read hi r.payload)).trans hserved⟩

/-! ### The obligations -/

/-- Settles O38: a step stores what it shows, within the capacity and the registers' width, and counts modulo
2^MSG_W. -/
theorem stepKeepsTheInvariant : Obligations.StepKeepsTheInvariant := by
  intro s t hs hstep
  obtain ⟨hregs, hmsg⟩ := (invariant_iff s).mp hs
  obtain ⟨hcap, hcfg⟩ := step_cap_cfg hstep
  rw [invariant_iff, hcap, hcfg]
  exact ⟨(step_storesWrites hstep).registersOk hregs, step_msg_lt hmsg hstep⟩

/-- Settles O10: nothing of the served request's context stands before it, and it is of no other context. -/
theorem contextsKeepTheirOwnOrder : Obligations.ContextsKeepTheirOwnOrder := by
  intro s t r hfetch
  obtain ⟨before, after, turns, hpending, rfl, hbefore⟩ := fetch_request hfetch
  simp only [hpending, State.accept_pending, List.filter_append]
  refine ⟨?own, fun c hc => ?other⟩
  case own =>
    have hnone : before.filter (fun q => decide (q.ctx = r.ctx)) = [] :=
      List.filter_eq_nil_iff.mpr fun q hq => by simpa using hbefore q hq
    rw [hnone, List.filter_cons_of_pos (by simp)]
    rfl
  case other => rw [List.filter_cons_of_neg (by simpa using hc.symm)]

/-- Settles O18: a read mutates nothing and answers by the registers alone, and a store of the same words again changes
nothing. -/
theorem readsHaveNoSideEffectsAndRepeat : Obligations.ReadsHaveNoSideEffectsAndRepeat := by
  refine ⟨fun i s t hi h => ?frame, fun a c s t u v i hi hcfg hreg hcap hs hu => ?repeated,
    fun a n p s t u hwf hs ht => ?again⟩
  case frame =>
    obtain ⟨hstores, hencodes, hmoves⟩ := not_stores_encodes_moves_of_not_mutates hi
    obtain ⟨hcap, status, data, hanswers⟩ := exec_answersOnly h
    obtain ⟨hticks, hmsg⟩ := exec_counters_of_not_encodes h hencodes
    obtain ⟨hlat, hlon, hfree⟩ := exec_position_of_not_moves h hmoves
    exact ⟨⟨hcap, exec_reg_of_not_stores h hstores, hmsg, hticks, hlat, hlon⟩, hfree, _, hanswers⟩
  case repeated =>
    obtain ⟨⟨hvalid, -⟩, -⟩ := exec_next_iff.mp hs
    obtain ⟨status, data, hs', hu'⟩ := exec_read_congr hi hvalid hcfg hcap hreg
    cases hs.symm.trans hs'
    cases hu.symm.trans hu'
    exact ⟨status, data, rfl, rfl⟩
  case again =>
    obtain ⟨hcap, _, _, hcfg, -⟩ := exec_answersOnly hs
    have hreg := exec_swrite_reg hs
    rw [exec_swrite_reg ht, storeWords_reg, hcap, hcfg]
    rw [storeWords_reg] at hreg
    split
    next hfits =>
      rw [if_pos hfits] at hreg
      rw [hreg, memWrite_memWrite_same hwf]
    next => rfl

/-- Settles O29: the frame's words fit the registers as they are, and a store reads back. -/
theorem stationTickFillsTheRegisters : Obligations.StationTickFillsTheRegisters := by
  intro s t hframes hregW hmsgW hclass hwf hcap hexec j hj
  have hwords : (encodeTick s).words = stationWords s := by
    rw [← encodeStation_words hframes hmsgW]
    simp only [encodeTick, hclass]
  have hkeep : (stationWords s).map (registerValue s.cfg) = stationWords s :=
    (List.map_congr_left fun w _ => registerValue_of_wide hregW w).trans (List.map_id _)
  have hreg := exec_tick_reg hexec (hwords ▸ hcap)
  rw [hwords, hkeep] at hreg
  rw [hreg, readReg_memWrite_inside hwf hj]

/-- Settles O41, by induction on the number of steps. -/
theorem registersHoldTheLastWrite : Obligations.RegistersHoldTheLastWrite := by
  intro n
  induction n with
  | zero =>
    intro s t _ hrun i
    cases hrun
    rfl
  | succ n ih =>
    intro s t hwf hrun i
    obtain ⟨u, hstep, hrest⟩ := run_succ_next hrun
    have hu : u.reg = applyWrites s.reg (stepWrites s) := (step_storesWrites hstep).reg_eq
    calc readReg t.reg i
        = lastWritten i (readReg u.reg i) (runWrites n u) := ih u t (hu ▸ applyWrites_wf hwf _) hrest i
      _ = lastWritten i (lastWritten i (readReg s.reg i) (stepWrites s)) (runWrites n u) := by
          rw [hu, readReg_applyWrites hwf]
      _ = lastWritten i (readReg s.reg i) (runWrites (n + 1) s) := by
          rw [runWrites_succ_of_step hstep, lastWritten_append]

/-- Settles O42: the tick reads no queue, so it leaves the same block in both orders, and a read answers by the
registers it finds. -/
theorem readSeesAWholeFrameOrNone : Obligations.ReadSeesAWholeFrameOrNone := by
  intro s a c k read tickReq readReq hread htickCtx htickWord hreadCtx hreadWord hpending hadmitted
  have hsame := execBody_sameInterfaces .tick (s.accept tickReq [] [])
  have hvalid : configValid s.cfg = true := hadmitted.1
  obtain ⟨st1, d1, hread1, hreadStep⟩ := step_read_of_turn (s := { s with turns := [.read k, .tick] })
    (s' := { s with ctx := .read k }) (before := [tickReq]) hread hreadWord (by rw [hreadCtx]) hpending
    (by simp [htickCtx, hreadCtx]) hvalid rfl rfl rfl
  have hthenTick := step_tick_of_turn (s := (State.accept { s with turns := [.read k, .tick] } readReq [tickReq]
    [.tick]).respond st1 d1) (turns := []) (before := []) htickWord (by rw [htickCtx]; rfl) rfl nofun hadmitted rfl
  have htickStep := step_tick_of_turn (s := { s with turns := [.tick, .read k] }) (before := []) htickWord
    (by rw [htickCtx]) hpending nofun hadmitted rfl
  set ticked := execBody .tick (s.accept tickReq [] [])
  set first := (ticked.state.withQueues [] [] (s.responses ++ [⟨readReq.ctx, st1, d1⟩])).respond ticked.status
    ticked.data
  obtain ⟨st2, d2, hread2, hthenRead⟩ := step_read_of_turn
    (s := (ticked.state.withQueues [readReq] [.read k] s.responses).respond ticked.status ticked.data)
    (s' := { first with ctx := .read k }) (before := []) (turns := []) hread hreadWord (by rw [hreadCtx]; rfl) rfl nofun
    (hsame.cfg ▸ hvalid) rfl rfl rfl
  exact ⟨first, _, ⟨readReq.ctx, st1, d1⟩, ⟨readReq.ctx, st2, d2⟩, ⟨ticked.state.ctx, ticked.status, ticked.data⟩,
    run_two hreadStep hthenTick, run_two htickStep hthenRead, hread1, hread2, hreadCtx, hreadCtx,
    hsame.ctx.trans htickCtx, List.append_assoc _ _ _, List.append_assoc _ _ _, rfl, rfl, rfl, rfl, rfl, rfl⟩

/-- Settles O8: the fetch finds that request, and serving it runs its instruction. -/
theorem stepRunsTheDecodedRequest : Obligations.StepRunsTheDecodedRequest := fun _ _ _ hi =>
  ⟨fun _ hturns hpending => step_of_instr (fetch_of_no_turn hturns hpending) hi,
    fun _ _ _ hturns hpending hbefore => step_of_instr (fetch_of_turn hturns hpending hbefore) hi⟩

/-- Settles O21: the two bytes are the high and the low one. -/
theorem registerBytesRoundTrip : Obligations.RegisterBytesRoundTrip := fun v =>
  ⟨highByte v, lowByte v, rfl, highByte_toNat v, lowByte_toNat v, congrArg (fun w => [w]) (ofBytes_high_low v)⟩

end Sys2Proof.Machine
end

section
/-!
PROOFS. The statements about 30_encoding.md: the round trip between instructions and words (R70, R71, R80), the rows of
the opcode table (R73), the illegal words (R75), and the pseudo-instructions (R78).

A command word is its three fields (`cmdWord_fields`), and three equivalences say once what the decoder answers for a
word: an instruction (`decode_eq_instr_iff`), an illegal word (`exists_decode_eq_illegal_iff`), or a payload of the
wrong length (`decode_eq_payloadMismatch_iff`).
-/

namespace Sys2Proof.Machine

/-! ### The fields of a command word -/

theorem cmdOp_toNat (w : Cmd) : (cmdOp w).toNat = w.toNat / 2 ^ 32 := by
  have := w.isLt
  rw [cmdOp, BitVec.extractLsb'_toNat, Nat.shiftRight_eq_div_pow]
  omega

theorem cmdA_toNat (w : Cmd) : (cmdA w).toNat = w.toNat / 2 ^ 16 % 2 ^ 16 := by
  rw [cmdA, BitVec.extractLsb'_toNat, Nat.shiftRight_eq_div_pow]

theorem cmdB_toNat (w : Cmd) : (cmdB w).toNat = w.toNat % 2 ^ 16 := by
  rw [cmdB, BitVec.extractLsb'_toNat, Nat.shiftRight_zero]

/-- A command word is nothing but its fields (30_encoding.md R70). -/
theorem cmdWord_fields (w : Cmd) : cmdWord (cmdOp w) (cmdA w) (cmdB w) = w := by
  apply BitVec.eq_of_toNat_eq
  rw [cmdWord_toNat, cmdOp_toNat, cmdA_toNat, cmdB_toNat]
  omega

theorem fields_zero_iff (w : Cmd) : (cmdA w = 0 ∧ cmdB w = 0) ↔ w.toNat % 2 ^ 32 = 0 := by
  have hzero (v : Half) : v = 0 ↔ v.toNat = 0 := BitVec.toNat_inj.symm
  rw [hzero, hzero, cmdA_toNat, cmdB_toNat]
  omega

/-! ### What the decoder answers -/

theorem decodeBare_eq_instr_iff {w : Cmd} {i j : Instr} :
    decodeBare w i = .instr j ↔ (cmdA w = 0 ∧ cmdB w = 0) ∧ i = j := by
  unfold decodeBare
  split <;> simp_all

theorem exists_decodeBare_eq_illegal_iff {w : Cmd} {i : Instr} :
    (∃ why, decodeBare w i = .illegal why) ↔ ¬(cmdA w = 0 ∧ cmdB w = 0) := by
  unfold decodeBare
  split <;> simp_all

/-- Where both fields of a GENC are 0, no altitude is asked for. -/
theorem decodeGenc_of_fields_zero {w : Cmd} (h : cmdA w = 0 ∧ cmdB w = 0) : decodeGenc w = .instr .genc := by
  simp [decodeGenc, decodeBare, h.1, h.2]

/-- GENC admits no field other than 0, whichever name the rejection has (43_geo_simulator.md R176). -/
theorem exists_decodeGenc_eq_illegal_iff {w : Cmd} :
    (∃ why, decodeGenc w = .illegal why) ↔ ¬(cmdA w = 0 ∧ cmdB w = 0) := by
  unfold decodeGenc
  split
  next haltitude => simp [haltitude.2]
  next => exact exists_decodeBare_eq_illegal_iff

theorem decodeGenc_eq_instr_iff {w : Cmd} {j : Instr} :
    decodeGenc w = .instr j ↔ (cmdA w = 0 ∧ cmdB w = 0) ∧ .genc = j := by
  by_cases h : cmdA w = 0 ∧ cmdB w = 0
  · simp [decodeGenc_of_fields_zero h, h]
  · obtain ⟨why, hwhy⟩ := exists_decodeGenc_eq_illegal_iff.mpr h
    exact iff_of_false (fun hinstr => nomatch hwhy.symm.trans hinstr) fun hzero => h hzero.1

/-- A word that reads as an SWRITE has its operands, and the payload is the one given. -/
theorem decode_eq_swrite {w : Cmd} {p q : List Half} {a n : Half} (h : decode w p = .instr (.swrite a n q)) :
    cmdA w = a ∧ cmdB w = n ∧ q = p := by
  have hop : cmdOp w = 3 := (decode_instr h).1.trans (cmdOp_cmdWord 3 a n)
  have hserved : decodeSwrite w p = .instr (.swrite a n q) := by simpa [decode, hop] using h
  obtain ⟨heq, -⟩ := decodeSwrite_instr hserved
  cases heq
  exact ⟨rfl, rfl, rfl⟩

/-- Only SWRITE looks at the payload. -/
theorem decodeBare_ne_payloadMismatch (w : Cmd) (i : Instr) : decodeBare w i ≠ .payloadMismatch := by
  unfold decodeBare
  split <;> simp

theorem decodeGenc_ne_payloadMismatch (w : Cmd) : decodeGenc w ≠ .payloadMismatch := by
  unfold decodeGenc
  split
  · simp
  · exact decodeBare_ne_payloadMismatch _ _

/-- What the decoder reads assembles to the word it was read from. -/
theorem encodeWord_of_decode {w : Cmd} {p : List Half} {i : Instr} (h : decode w p = .instr i) : encodeWord i = w := by
  obtain ⟨hop, -⟩ := decode_instr h
  rw [← cmdWord_fields w, hop]
  cases i with
  | hread | sread =>
    obtain ⟨hA, hB⟩ : cmdA w = _ ∧ cmdB w = _ := by simpa [decode, hop, encodeWord] using h
    rw [hA, hB, encodeWord, cmdOp_cmdWord]
  | swrite =>
    obtain ⟨hA, hB, -⟩ := decode_eq_swrite h
    rw [hA, hB, encodeWord, cmdOp_cmdWord]
  | encs | encd | tick | gpos | gadv | genc =>
    obtain ⟨hA, hB⟩ : cmdA w = 0 ∧ cmdB w = 0 := by
      simpa [decode, hop, encodeWord, decodeBare_eq_instr_iff, decodeGenc_eq_instr_iff] using h
    rw [hA, hB]
    rfl

/-- The decoder answers an instruction exactly for its assembled word, with any payload but for an SWRITE's, which has
the length it names (30_encoding.md R71, R73). -/
theorem decode_eq_instr_iff {w : Cmd} {p : List Half} {i : Instr} :
    decode w p = .instr i ↔ encodeWord i = w ∧ i.wellFormed = true ∧ ∀ a n q, i = .swrite a n q → q = p := by
  constructor
  case mp =>
    intro h
    refine ⟨encodeWord_of_decode h, (decode_instr h).2, ?_⟩
    rintro a n q rfl
    exact (decode_eq_swrite h).2.2
  case mpr =>
    rintro ⟨rfl, hwf, hpayload⟩
    cases i with
    | hread a c => exact decode_encodeWord_read (.inl rfl) p
    | sread a c => exact decode_encodeWord_read (.inr rfl) p
    | swrite a n q =>
      obtain rfl := hpayload a n q rfl
      have hlen : q.length = n.toNat := beq_iff_eq.mp hwf
      simp [decode, decodeSwrite, encodeWord, hlen]
    | encs | encd | tick | gpos | gadv | genc => rfl

/-- Illegal are the reserved opcodes and a field that is not 0 beside an opcode that uses none (30_encoding.md R75). -/
theorem exists_decode_eq_illegal_iff {w : Cmd} {p : List Half} :
    (∃ why, decode w p = .illegal why) ↔
      (cmdOp w).toNat = 0 ∨ 10 ≤ (cmdOp w).toNat ∨ (4 ≤ (cmdOp w).toNat ∧ ¬(cmdA w = 0 ∧ cmdB w = 0)) := by
  unfold decode
  split
  case h_1 hop | h_2 hop => simp [hop]
  case h_3 hop =>
    unfold decodeSwrite
    split <;> simp [hop]
  case h_4 hop | h_5 hop | h_6 hop | h_7 hop | h_8 hop => simpa [hop] using exists_decodeBare_eq_illegal_iff
  case h_9 hop => simpa [hop] using exists_decodeGenc_eq_illegal_iff
  case h_10 =>
    have hreserved : (cmdOp w).toNat = 0 ∨ 10 ≤ (cmdOp w).toNat := by
      simp only [imp_false] at *
      omega
    exact iff_of_true ⟨_, rfl⟩ (hreserved.imp_right .inl)

/-- Only an SWRITE whose payload has another length than it names is left over (60_exceptions.md R211(d)). -/
theorem decode_eq_payloadMismatch_iff {w : Cmd} {p : List Half} :
    decode w p = .payloadMismatch ↔ (cmdOp w).toNat = 3 ∧ p.length ≠ (cmdB w).toNat := by
  unfold decode
  split
  case h_1 hop | h_2 hop => simp [hop]
  case h_3 hop =>
    unfold decodeSwrite
    split <;> simp_all
  case h_4 hop | h_5 hop | h_6 hop | h_7 hop | h_8 hop => simp [hop, decodeBare_ne_payloadMismatch]
  case h_9 hop => simp [hop, decodeGenc_ne_payloadMismatch]
  case h_10 => simp_all

/-! ### The rows of the opcode table -/

theorem row_mask (i : Instr) : i.row.mask = 0xF00000000 ∨ i.row.mask = 0xFFFFFFFFF := by
  cases i with
  | hread | sread | swrite => exact .inl rfl
  | _ => exact .inr rfl

/-- Every row fixes the whole opcode field. -/
theorem cmdOp_row_mask (i : Instr) : cmdOp i.row.mask = 15 := by
  obtain h | h := row_mask i <;> rw [h] <;> decide

theorem cmdOp_row_pattern (i : Instr) : cmdOp i.row.pattern = cmdOp (encodeWord i) := by
  cases i with
  | hread a c => exact (cmdOp_cmdWord 1 0 0).trans (cmdOp_cmdWord 1 a c).symm
  | sread a c => exact (cmdOp_cmdWord 2 0 0).trans (cmdOp_cmdWord 2 a c).symm
  | swrite a n p => exact (cmdOp_cmdWord 3 0 0).trans (cmdOp_cmdWord 3 a n).symm
  | _ => rfl

/-- A word in an instruction's row has the instruction's opcode. -/
theorem cmdOp_of_hits {i : Instr} {w : Cmd} (h : i.row.hits w = true) : cmdOp w = cmdOp (encodeWord i) := by
  have hpattern : w &&& i.row.mask = i.row.pattern := beq_iff_eq.mp h
  calc cmdOp w
      = cmdOp w &&& cmdOp i.row.mask := by rw [cmdOp_row_mask]; exact (BitVec.and_allOnes (x := cmdOp w)).symm
    _ = cmdOp (w &&& i.row.mask) := BitVec.extractLsb'_and.symm
    _ = cmdOp (encodeWord i) := by rw [hpattern, cmdOp_row_pattern]

theorem row_hits_encodeWord (i : Instr) : i.row.hits (encodeWord i) = true := by
  cases i with
  | hread a c => exact Laws.RowMatch.hread a c
  | sread a c => exact Laws.RowMatch.sread a c
  | swrite a n p => exact Laws.RowMatch.swrite a n p
  | encs => exact Laws.RowMatch.encs
  | encd => exact Laws.RowMatch.encd
  | tick => exact Laws.RowMatch.tick
  | gpos => exact Laws.RowMatch.gpos
  | gadv => exact Laws.RowMatch.gadv
  | genc => exact Laws.RowMatch.genc

/-! ### Illegal words -/

/-- The words of R75 as numbers are those that the decoder calls illegal. -/
theorem exists_decode_eq_illegal_iff_illegalWord {w : Cmd} {p : List Half} :
    (∃ why, decode w p = .illegal why) ↔ IllegalWord w := by
  rw [exists_decode_eq_illegal_iff, fields_zero_iff, cmdOp_toNat]
  rfl

/-! ### The obligations -/

/-- Settles O1: an assembled word and payload meet the decoder's characterisation. -/
theorem decodeOfEncodeIsIdentity : Obligations.DecodeOfEncodeIsIdentity := fun i hwf =>
  decode_eq_instr_iff.mpr ⟨rfl, hwf, fun _ _ _ hi => by rw [hi]; rfl⟩

/-- Settles O2: the decoder's characterisation, and the instruction's word lies in its row. -/
theorem decodedWordIsAssembledWord : Obligations.DecodedWordIsAssembledWord := by
  intro w p i h
  obtain ⟨rfl, hwf, hpayload⟩ := decode_eq_instr_iff.mp h
  exact ⟨rfl, row_hits_encodeWord i, hwf, hpayload⟩

/-- Settles O3: a row fixes the opcode field, so both rows fix the same one. -/
theorem tableRowsAreDisjoint : Obligations.TableRowsAreDisjoint := fun _ _ _ hi hj =>
  (cmdOp_of_hits hi).symm.trans (cmdOp_of_hits hj)

/-- Settles O6: the decoder's illegal words are the listed numbers, what is left is an SWRITE of another length, and
taking the request and answering it keep the block as it is. -/
theorem illegalWordsAnswerIllegalCommand : Obligations.IllegalWordsAnswerIllegalCommand := by
  refine ⟨fun w p => exists_decode_eq_illegal_iff_illegalWord, fun w p hlegal hlength => ?legal,
    fun s r t hfetch hillegal hcfg => ?answered⟩
  case legal =>
    cases hdecode : decode w p with
    | instr i => exact ⟨i, rfl⟩
    | illegal why => exact absurd (exists_decode_eq_illegal_iff_illegalWord.mp ⟨why, hdecode⟩) hlegal
    | payloadMismatch =>
      obtain ⟨hop, hne⟩ := decode_eq_payloadMismatch_iff.mp hdecode
      rw [cmdOp_toNat] at hop
      rw [cmdB_toNat] at hne
      exact absurd (hlength hop) hne
  case answered =>
    obtain ⟨why, hwhy⟩ := exists_decode_eq_illegal_iff_illegalWord.mpr hillegal
    obtain ⟨before, after, turns, -, rfl, -⟩ := fetch_request hfetch
    refine ⟨?_, rfl, rfl, rfl, rfl, rfl, rfl⟩
    rw [step_of_request hfetch, serve, hwhy]
    exact answerIllegal_next.mpr ⟨hcfg, rfl⟩

/-- Settles O4: the sum of a word's fields does not wrap in 36 bits. -/
theorem assembledWordIsOpABNumber : Obligations.AssembledWordIsOpABNumber := by
  refine ⟨fun a c => cmdWord_toNat 1 a c, fun a c => cmdWord_toNat 2 a c, fun a n p => ⟨cmdWord_toNat 3 a n, rfl⟩,
    cmdWord_toNat 4 0 0, cmdWord_toNat 5 0 0, cmdWord_toNat 6 0 0, cmdWord_toNat 7 0 0, cmdWord_toNat 8 0 0,
    cmdWord_toNat 9 0 0, fun a c => ⟨rfl, rfl⟩, ?bare, rfl, rfl⟩
  case bare => rintro i (rfl | rfl | rfl | rfl | rfl | rfl) <;> rfl

/-- Settles O5: each word is the assembled form of its instruction, and the last asks for the altitude. -/
theorem sampleWordsDecode : Obligations.SampleWordsDecode :=
  ⟨decodeOfEncodeIsIdentity (.hread 0xFFFF 0xFFFF) rfl, decodeOfEncodeIsIdentity (.sread 8 2) rfl,
    decodeOfEncodeIsIdentity (.swrite 3 2 [0x1234, 0xABCD]) rfl, decodeOfEncodeIsIdentity .encs rfl,
    decodeOfEncodeIsIdentity .encd rfl, decodeOfEncodeIsIdentity .tick rfl, decodeOfEncodeIsIdentity .gpos rfl,
    decodeOfEncodeIsIdentity .gadv rfl, decodeOfEncodeIsIdentity .genc rfl, rfl⟩

/-- Settles O7: a byte count of 2n fits 16 bits up to 32767 registers, and the k-th TICK is the k-th draws' request. -/
theorem pseudoInstructionsExpand : Obligations.PseudoInstructionsExpand := by
  refine ⟨fun a n hn => ⟨BitVec.ofNat 16 (2 * n), if_pos hn, ?_⟩, fun a n hn => if_neg (by omega),
    fun a v => ⟨rfl, rfl⟩, fun ds => ⟨List.length_map _, fun k hk => ?_⟩⟩
  · have hcount : (BitVec.ofNat 16 (2 * n)).toNat = 2 * n := Nat.mod_eq_of_lt (by omega)
    refine ⟨hcount, ?_⟩
    rw [operand, hcount, registersOfBytes]
    omega
  · rw [tickn, List.getElem?_map, List.getElem?_eq_getElem hk]
    rfl

end Sys2Proof.Machine
end

section
/-!
PROOFS. The statements about 40_register_store.md: SREAD (R100), SWRITE (R101, R102) and the snapshot reader (R105,
R106).

The reader goes byte by byte and the grammar token by token. What meets both is `TextFrom`: the texts that may follow
each of the reader's places, and the elements they add. A byte put before such a text is again one (`textFrom_cons`),
so whatever the reader accepts is in the grammar; and it reads the grammar's tokens one after the other.
-/

namespace Sys2Proof.Machine

/-! ### SREAD and SWRITE on operands and words that fit -/

theorem exec_sread_of_fit {a c : Half} {s : State} (hfit : FieldsFit s.cfg a c) :
    exec (.sread a c) s = transact false true (sreadBody a.toNat c.toNat) s := by
  obtain ⟨ha, hc⟩ := hfit
  rw [← addressOf_of_lt ha, ← countOf_of_lt hc]
  rfl

theorem sreadBody_of_le {a c : Nat} {s : State} (h : a + c ≤ s.cap) :
    sreadBody a c s = ⟨s, .ok, .words (memRead s.reg a c)⟩ := if_pos ((fits_iff s a c).mpr h)

theorem sreadBody_of_lt {a c : Nat} {s : State} (h : s.cap < a + c) :
    sreadBody a c s = ⟨s, .outOfRange, .words []⟩ :=
  if_neg fun hfits => absurd ((fits_iff s a c).mp hfits) (by omega)

theorem exec_swrite_of_fit {a n : Half} {p : List Half} {s : State} (hfit : FieldsFit s.cfg a n)
    (hp : p.length = n.toNat) : exec (.swrite a n p) s = transact true true (swriteBody a.toNat p) s := by
  obtain ⟨ha, hn⟩ := hfit
  rw [exec_swrite_of_length hp, addressOf_of_lt ha, countOf_of_lt hn, ← hp, List.take_length]

theorem swriteBody_of_le {a : Nat} {p : List Half} {s : State} (h : a + p.length ≤ s.cap) :
    swriteBody a p s = ⟨s.writeWords a p, .ok, .none⟩ := by
  obtain ⟨-, hstore⟩ | ⟨hlt, -⟩ := storeWords_cases s a p
  · rw [swriteBody, hstore]
  · omega

theorem swriteBody_of_lt {a : Nat} {p : List Half} {s : State} (h : s.cap < a + p.length) :
    swriteBody a p s = ⟨s, .outOfRange, .none⟩ := by
  obtain ⟨hle, -⟩ | ⟨-, hstore⟩ := storeWords_cases s a p
  · omega
  · rw [swriteBody, hstore]

theorem map_registerValue_of_fit {c : Config} {ws : List Half} (h : WordsFit c ws) : ws.map (registerValue c) = ws :=
  (List.map_congr_left (g := id) fun w hw => registerValue_of_lt (h w hw)).trans (List.map_id ws)

/-! ### The bytes of a snapshot -/

theorem jsonSpace_iff (b : Byte) : jsonSpace b = true ↔ b = 0x20 ∨ b = 0x09 ∨ b = 0x0A ∨ b = 0x0D := by
  simp [jsonSpace, or_assoc]

theorem spaceText_nil : SpaceText [] := nofun

theorem SpaceText.cons {b : Byte} {bs : List Byte} (hb : jsonSpace b = true) (h : SpaceText bs) : SpaceText (b :: bs) :=
  List.forall_mem_cons.mpr ⟨(jsonSpace_iff b).mp hb, h⟩

theorem jsonDigit_eq_some_iff {b : Byte} {d : Nat} :
    jsonDigit b = some d ↔ (0x30 ≤ b.toNat ∧ b.toNat ≤ 0x39) ∧ d = b.toNat - 0x30 := by
  simp [jsonDigit, eq_comm]

/-- White space is no digit. -/
theorem jsonDigit_of_space {b : Byte} (h : jsonSpace b = true) : jsonDigit b = none := by
  obtain rfl | rfl | rfl | rfl := (jsonSpace_iff b).mp h <;> rfl

/-- Where an element may begin: white space stays, a 0 stands alone, another digit goes on. -/
theorem snapElement_eq_some_iff {stay p : SnapPlace} {b : Byte} :
    snapElement stay b = some p ↔ (jsonSpace b = true ∧ p = stay) ∨ (jsonDigit b = some 0 ∧ p = .zero) ∨
      ∃ d, d ≠ 0 ∧ jsonDigit b = some d ∧ p = .number d := by
  unfold snapElement
  cases hspace : jsonSpace b with
  | true => simp [jsonDigit_of_space hspace, eq_comm]
  | false =>
    cases hdigit : jsonDigit b with
    | none => simp
    | some d => cases d <;> simp [eq_comm]

theorem snapAfter_eq_some_iff {b : Byte} {p : SnapPlace} :
    snapAfter b = some p ↔
      (jsonSpace b = true ∧ p = .element) ∨ (b = 0x2C ∧ p = .comma) ∨ (b = 0x5D ∧ p = .closed) := by
  constructor
  · intro h
    unfold snapAfter at h
    split_ifs at h with hspace hcomma hbracket <;> obtain rfl := Option.some.inj h
    · exact .inl ⟨hspace, rfl⟩
    · exact .inr (.inl ⟨hcomma, rfl⟩)
    · exact .inr (.inr ⟨hbracket, rfl⟩)
  · rintro (⟨hspace, rfl⟩ | ⟨rfl, rfl⟩ | ⟨rfl, rfl⟩)
    · exact if_pos hspace
    · rfl
    · rfl

/-- The bytes a number token is made of. -/
def DigitsText (ds : List Byte) : Prop := ∀ b ∈ ds, 0x30 ≤ b.toNat ∧ b.toNat ≤ 0x39

/-- The value of a number whose digits so far have the value `n`, after the digits `ds`. -/
def digitsValue (n : Nat) (ds : List Byte) : Nat := ds.foldl (fun n b => 10 * n + (b.toNat - 0x30)) n

/-- A number token is a 0 alone, or a digit that is not 0 and any digits after it. -/
theorem numberText_iff {tok : List Byte} {v : Nat} :
    NumberText tok v ↔ (tok = [0x30] ∧ v = 0) ∨
      ∃ b d ds, tok = b :: ds ∧ d ≠ 0 ∧ jsonDigit b = some d ∧ DigitsText ds ∧ v = digitsValue d ds := by
  constructor
  · rintro ⟨hne, hdigits, hzero, rfl⟩
    obtain _ | ⟨b, ds⟩ := tok
    · exact absurd rfl hne
    obtain ⟨hb, hds⟩ := List.forall_mem_cons.mp hdigits
    by_cases hb0 : b = 0x30
    · subst hb0
      obtain rfl : ds = [] := by simpa using hzero rfl
      exact .inl ⟨rfl, rfl⟩
    · have hne0 : b.toNat ≠ 0x30 := fun h => hb0 (BitVec.eq_of_toNat_eq h)
      refine .inr ⟨b, b.toNat - 0x30, ds, rfl, by omega, jsonDigit_eq_some_iff.mpr ⟨hb, rfl⟩, hds, ?_⟩
      rw [digitsValue, List.foldl_cons, Nat.mul_zero, Nat.zero_add]
  · rintro (⟨rfl, rfl⟩ | ⟨b, d, ds, rfl, hd, hb, hds, rfl⟩)
    · exact ⟨nofun, by decide, fun _ => rfl, rfl⟩
    · obtain ⟨hrange, rfl⟩ := jsonDigit_eq_some_iff.mp hb
      refine ⟨nofun, List.forall_mem_cons.mpr ⟨hrange, hds⟩, fun hhead => ?_, ?_⟩
      · obtain rfl : b = 0x30 := Option.some.inj hhead
        exact absurd rfl hd
      · rw [digitsValue, List.foldl_cons, Nat.mul_zero, Nat.zero_add]

/-! ### What the grammar allows after each place -/

/-- One element or more, then the closing bracket. -/
def ElementsAndClose (bs : List Byte) (vs : List Half) : Prop :=
  ∃ inner post, bs = inner ++ 0x5D :: post ∧ SpaceText post ∧ ElementsText inner vs

/-- What follows an element: the closing bracket, or a comma and more elements. -/
def AfterElement (bs : List Byte) (vs : List Half) : Prop :=
  ∃ pre rest, SpaceText pre ∧ ((bs = pre ++ 0x5D :: rest ∧ SpaceText rest ∧ vs = []) ∨
    (bs = pre ++ 0x2C :: rest ∧ ElementsAndClose rest vs))

/-- What follows the opening bracket. -/
def AfterOpening (bs : List Byte) (vs : List Half) : Prop :=
  ∃ inner post, bs = inner ++ 0x5D :: post ∧ SpaceText post ∧ ((SpaceText inner ∧ vs = []) ∨ ElementsText inner vs)

/-- The texts that complete a snapshot from a place of the reader, and the elements that end in them. -/
def TextFrom : SnapPlace → List Byte → List Half → Prop
  | .start, bs, vs => ∃ pre rest, SpaceText pre ∧ bs = pre ++ 0x5B :: rest ∧ AfterOpening rest vs
  | .opened, bs, vs => AfterOpening bs vs
  | .number n, bs, vs => ∃ ds rest v ws, bs = ds ++ rest ∧ DigitsText ds ∧ v.toNat = digitsValue n ds ∧
      AfterElement rest ws ∧ vs = v :: ws
  | .zero, bs, vs => ∃ ws, AfterElement bs ws ∧ vs = 0 :: ws
  | .element, bs, vs => AfterElement bs vs
  | .comma, bs, vs => ElementsAndClose bs vs
  | .closed, bs, vs => SpaceText bs ∧ vs = []

theorem textFrom_start_iff {bs : List Byte} {vs : List Half} : TextFrom .start bs vs ↔ SnapshotText bs vs := by
  constructor
  · rintro ⟨pre, -, hpre, rfl, inner, post, rfl, hpost, hinner⟩
    exact ⟨pre, inner, post, hpre, hpost, by simp, hinner⟩
  · rintro ⟨pre, inner, post, hpre, hpost, rfl, hinner⟩
    exact ⟨pre, _, hpre, by simp, inner, post, rfl, hpost, hinner⟩

theorem ElementsText.cons_space {b : Byte} {bs : List Byte} {vs : List Half} (hb : jsonSpace b = true)
    (h : ElementsText bs vs) : ElementsText (b :: bs) vs := by
  cases h with
  | last hpre htok hpost => exact .last (hpre.cons hb) htok hpost
  | more hpre htok hpost hrest => exact .more (hpre.cons hb) htok hpost hrest

theorem ElementsAndClose.cons_space {b : Byte} {bs : List Byte} {vs : List Half} (hb : jsonSpace b = true)
    (h : ElementsAndClose bs vs) : ElementsAndClose (b :: bs) vs := by
  obtain ⟨inner, post, rfl, hpost, hinner⟩ := h
  exact ⟨b :: inner, post, rfl, hpost, hinner.cons_space hb⟩

theorem AfterElement.cons_space {b : Byte} {bs : List Byte} {vs : List Half} (hb : jsonSpace b = true)
    (h : AfterElement bs vs) : AfterElement (b :: bs) vs := by
  obtain ⟨pre, rest, hpre, ⟨rfl, hrest⟩ | ⟨rfl, hrest⟩⟩ := h
  · exact ⟨b :: pre, rest, hpre.cons hb, .inl ⟨rfl, hrest⟩⟩
  · exact ⟨b :: pre, rest, hpre.cons hb, .inr ⟨rfl, hrest⟩⟩

theorem AfterOpening.cons_space {b : Byte} {bs : List Byte} {vs : List Half} (hb : jsonSpace b = true)
    (h : AfterOpening bs vs) : AfterOpening (b :: bs) vs := by
  obtain ⟨inner, post, rfl, hpost, ⟨hinner, hvs⟩ | hinner⟩ := h
  · exact ⟨b :: inner, post, rfl, hpost, .inl ⟨hinner.cons hb, hvs⟩⟩
  · exact ⟨b :: inner, post, rfl, hpost, .inr (hinner.cons_space hb)⟩

theorem ElementsAndClose.afterOpening {bs : List Byte} {vs : List Half} (h : ElementsAndClose bs vs) :
    AfterOpening bs vs := by
  obtain ⟨inner, post, hbs, hpost, hinner⟩ := h
  exact ⟨inner, post, hbs, hpost, .inr hinner⟩

/-- A number token and what follows it is one element or more. -/
theorem NumberText.elementsAndClose {tok rest : List Byte} {v : Half} {vs : List Half} (htok : NumberText tok v.toNat)
    (h : AfterElement rest vs) : ElementsAndClose (tok ++ rest) (v :: vs) := by
  obtain ⟨pre, after, hpre, ⟨rfl, hafter, rfl⟩ | ⟨rfl, inner, post, rfl, hpost, hinner⟩⟩ := h
  · exact ⟨[] ++ tok ++ pre, after, by simp, hafter, .last spaceText_nil htok hpre⟩
  · exact ⟨[] ++ tok ++ pre ++ 0x2C :: inner, post, by simp, hpost, .more spaceText_nil htok hpre hinner⟩

/-! ### What the reader accepts is in the grammar -/

/-- A byte where an element may begin, before what follows the place it leads to. -/
theorem elementsAndClose_cons {stay p : SnapPlace} {b : Byte} {bs : List Byte} {vs : List Half}
    (hstep : snapElement stay b = some p) (h : TextFrom p bs vs) :
    (jsonSpace b = true ∧ p = stay) ∨ ElementsAndClose (b :: bs) vs := by
  obtain hspace | ⟨hb, rfl⟩ | ⟨d, hd, hb, rfl⟩ := snapElement_eq_some_iff.mp hstep
  · exact .inl hspace
  · obtain ⟨ws, hws, rfl⟩ := h
    obtain ⟨hrange, hzero⟩ := jsonDigit_eq_some_iff.mp hb
    have hb0 : b.toNat = 0x30 := by omega
    obtain rfl : b = 0x30 := BitVec.eq_of_toNat_eq hb0
    exact .inr (NumberText.elementsAndClose (tok := [0x30]) (numberText_iff.mpr (.inl ⟨rfl, rfl⟩)) hws)
  · obtain ⟨ds, rest, v, ws, rfl, hds, hv, hws, rfl⟩ := h
    exact .inr (NumberText.elementsAndClose (tok := b :: ds)
      (numberText_iff.mpr (.inr ⟨b, d, ds, rfl, hd, hb, hds, hv⟩)) hws)

/-- A byte after an element, before what follows the place it leads to. -/
theorem afterElement_cons {p : SnapPlace} {b : Byte} {bs : List Byte} {vs : List Half} (hstep : snapAfter b = some p)
    (h : TextFrom p bs vs) : AfterElement (b :: bs) vs := by
  obtain ⟨hspace, rfl⟩ | ⟨rfl, rfl⟩ | ⟨rfl, rfl⟩ := snapAfter_eq_some_iff.mp hstep
  · exact AfterElement.cons_space hspace h
  · exact ⟨[], bs, spaceText_nil, .inr ⟨rfl, h⟩⟩
  · exact ⟨[], bs, spaceText_nil, .inl ⟨rfl, h⟩⟩

theorem snapEnd_eq_some_iff {r r' : SnapReader} {n : Nat} {b : Byte} :
    snapEnd r n b = some r' ↔ snapAfter b = some r'.place ∧ r'.elements = n :: r.elements := by
  obtain ⟨p, es⟩ := r'
  simp [snapEnd, eq_comm]

/-- A byte that the reader takes, put before a text that completes a snapshot from the place it leads to, completes one
from the place it was taken in, with the same list of values in all. -/
theorem textFrom_cons {p p' : SnapPlace} {es es' : List Nat} {b : Byte} {bs : List Byte} {vs' : List Half}
    (hstep : snapStep ⟨p, es⟩ b = some ⟨p', es'⟩) (h : TextFrom p' bs vs') (hfit : ∀ n ∈ es', n ≤ 65535) :
    ∃ vs, TextFrom p (b :: bs) vs ∧ es'.reverse ++ vs'.map BitVec.toNat = es.reverse ++ vs.map BitVec.toNat := by
  cases p with
  | start =>
    simp only [snapStep] at hstep
    split_ifs at hstep with hspace hbracket <;> cases hstep
    · obtain ⟨pre, rest, hpre, rfl, hrest⟩ := h
      exact ⟨vs', ⟨b :: pre, rest, hpre.cons hspace, rfl, hrest⟩, rfl⟩
    · exact ⟨vs', ⟨[], bs, spaceText_nil, by rw [hbracket]; rfl, h⟩, rfl⟩
  | opened =>
    simp only [snapStep] at hstep
    split_ifs at hstep with hbracket
    · cases hstep
      obtain ⟨hbs, rfl⟩ := h
      exact ⟨[], ⟨[], bs, by rw [hbracket]; rfl, hbs, .inl ⟨spaceText_nil, rfl⟩⟩, rfl⟩
    · obtain ⟨q, hq, hr⟩ := Option.map_eq_some_iff.mp hstep
      cases hr
      obtain ⟨hspace, rfl⟩ | helements := elementsAndClose_cons hq h
      · exact ⟨vs', AfterOpening.cons_space hspace h, rfl⟩
      · exact ⟨vs', helements.afterOpening, rfl⟩
  | number n =>
    simp only [snapStep] at hstep
    split at hstep
    next d hd =>
      cases hstep
      obtain ⟨hrange, rfl⟩ := jsonDigit_eq_some_iff.mp hd
      obtain ⟨ds, rest, v, ws, rfl, hds, hv, hws, rfl⟩ := h
      exact ⟨_, ⟨b :: ds, rest, v, ws, rfl, List.forall_mem_cons.mpr ⟨hrange, hds⟩, hv, hws, rfl⟩, rfl⟩
    next =>
      obtain ⟨hafter, rfl⟩ := snapEnd_eq_some_iff.mp hstep
      have hn : (BitVec.ofNat 16 n).toNat = n :=
        Nat.mod_eq_of_lt (Nat.lt_succ_of_le (hfit n List.mem_cons_self))
      exact ⟨_, ⟨[], b :: bs, BitVec.ofNat 16 n, vs', rfl, nofun, hn, afterElement_cons hafter h, rfl⟩, by simp [hn]⟩
  | zero =>
    obtain ⟨hafter, rfl⟩ := snapEnd_eq_some_iff.mp hstep
    exact ⟨_, ⟨vs', afterElement_cons hafter h, rfl⟩, by simp⟩
  | element =>
    obtain ⟨q, hq, hr⟩ := Option.map_eq_some_iff.mp hstep
    cases hr
    exact ⟨vs', afterElement_cons hq h, rfl⟩
  | comma =>
    obtain ⟨q, hq, hr⟩ := Option.map_eq_some_iff.mp hstep
    cases hr
    obtain ⟨hspace, rfl⟩ | helements := elementsAndClose_cons hq h
    · exact ⟨vs', ElementsAndClose.cons_space hspace h, rfl⟩
    · exact ⟨vs', helements, rfl⟩
  | closed =>
    simp only [snapStep] at hstep
    split_ifs at hstep with hspace
    cases hstep
    obtain ⟨hbs, rfl⟩ := h
    exact ⟨[], ⟨hbs.cons hspace, rfl⟩, rfl⟩

/-- What the reader accepts from a place, with values of 16 bits, completes a snapshot from there. -/
theorem textFrom_of_snapRead {p : SnapPlace} {es out : List Nat} {bs : List Byte}
    (h : snapRead ⟨p, es⟩ bs = some ⟨.closed, out⟩) (hfit : ∀ n ∈ out, n ≤ 65535) :
    ∃ vs, TextFrom p bs vs ∧ out.reverse = es.reverse ++ vs.map BitVec.toNat := by
  induction bs generalizing p es with
  | nil =>
    cases h
    exact ⟨[], ⟨spaceText_nil, rfl⟩, by simp⟩
  | cons b bs ih =>
    rw [snapRead] at h
    split at h
    next r hstep =>
      obtain ⟨vs', hvs', hout⟩ := ih h
      have hfit' (n : Nat) (hn : n ∈ r.elements) : n ≤ 65535 :=
        hfit n (List.mem_reverse.mp (by simp [hout, hn]))
      obtain ⟨vs, hvs, heq⟩ := textFrom_cons hstep hvs' hfit'
      exact ⟨vs, hvs, hout.trans heq⟩
    next => cases h

/-! ### What is in the grammar the reader accepts -/

theorem snapRead_append {r r' : SnapReader} {bs : List Byte} (h : snapRead r bs = some r') (cs : List Byte) :
    snapRead r (bs ++ cs) = snapRead r' cs := by
  induction bs generalizing r with
  | nil =>
    cases h
    rfl
  | cons b bs ih =>
    rw [snapRead] at h
    split at h
    next r'' hstep =>
      rw [List.cons_append, snapRead, hstep]
      exact ih h
    next => cases h

theorem snapRead_cons {r r' : SnapReader} {b : Byte} (h : snapStep r b = some r') (bs : List Byte) :
    snapRead r (b :: bs) = snapRead r' bs := by
  rw [snapRead, h]

/-- The places outside a number, where white space leaves the reader. -/
def staysOnSpace : SnapPlace → Bool
  | .start | .opened | .element | .comma | .closed => true
  | .number _ | .zero => false

theorem snapStep_space {p : SnapPlace} {b : Byte} (hb : jsonSpace b = true) (hp : staysOnSpace p = true)
    (es : List Nat) : snapStep ⟨p, es⟩ b = some ⟨p, es⟩ := by
  have hafter : snapAfter b = some .element := snapAfter_eq_some_iff.mpr (.inl ⟨hb, rfl⟩)
  have helement (stay : SnapPlace) : snapElement stay b = some stay := snapElement_eq_some_iff.mpr (.inl ⟨hb, rfl⟩)
  have hbracket : b ≠ 0x5D := by
    rintro rfl
    cases hb
  cases p with
  | start | closed => exact if_pos hb
  | opened => simp only [snapStep, if_neg hbracket, helement, Option.map_some]
  | element => simp only [snapStep, hafter, Option.map_some]
  | comma => simp only [snapStep, helement, Option.map_some]
  | zero | number => cases hp

theorem snapRead_space (p : SnapPlace) {bs : List Byte} (hbs : SpaceText bs) (hp : staysOnSpace p = true)
    (es : List Nat) : snapRead ⟨p, es⟩ bs = some ⟨p, es⟩ := by
  induction bs with
  | nil => rfl
  | cons b bs ih =>
    obtain ⟨hb, hbs⟩ := List.forall_mem_cons.mp hbs
    rw [snapRead_cons (snapStep_space ((jsonSpace_iff b).mpr hb) hp es), ih hbs]

theorem snapRead_digits {ds : List Byte} (hds : DigitsText ds) (n : Nat) (es : List Nat) :
    snapRead ⟨.number n, es⟩ ds = some ⟨.number (digitsValue n ds), es⟩ := by
  induction ds generalizing n with
  | nil => rfl
  | cons b ds ih =>
    obtain ⟨hb, hds⟩ := List.forall_mem_cons.mp hds
    have hdigit : jsonDigit b = some (b.toNat - 0x30) := jsonDigit_eq_some_iff.mpr ⟨hb, rfl⟩
    have hstep : snapStep ⟨.number n, es⟩ b = some ⟨.number (10 * n + (b.toNat - 0x30)), es⟩ := by
      simp only [snapStep, hdigit]
    rw [snapRead_cons hstep, ih hds]
    rfl

/-- The places after a number token of value `v`. -/
def InNumber (p : SnapPlace) (v : Nat) : Prop := (p = .zero ∧ v = 0) ∨ p = .number v

/-- From either place where an element may begin, a number token leads to the place of its value. -/
theorem snapRead_number {p : SnapPlace} (hp : p = .opened ∨ p = .comma) {tok : List Byte} {v : Nat}
    (htok : NumberText tok v) (es : List Nat) : ∃ q, InNumber q v ∧ snapRead ⟨p, es⟩ tok = some ⟨q, es⟩ := by
  obtain ⟨rfl, rfl⟩ | ⟨b, d, ds, rfl, hd, hb, hds, rfl⟩ := numberText_iff.mp htok
  · refine ⟨.zero, .inl ⟨rfl, rfl⟩, ?_⟩
    obtain rfl | rfl := hp <;> rfl
  · have helement (stay : SnapPlace) : snapElement stay b = some (.number d) :=
      snapElement_eq_some_iff.mpr (.inr (.inr ⟨d, hd, hb, rfl⟩))
    have hbracket : b ≠ 0x5D := by
      rintro rfl
      cases hb
    have hstep : snapStep ⟨p, es⟩ b = some ⟨.number d, es⟩ := by
      obtain rfl | rfl := hp
      · simp only [snapStep, if_neg hbracket, helement, Option.map_some]
      · simp only [snapStep, helement, Option.map_some]
    exact ⟨_, .inr rfl, by rw [snapRead_cons hstep, snapRead_digits hds]⟩

theorem jsonDigit_of_snapAfter {b : Byte} {p : SnapPlace} (h : snapAfter b = some p) : jsonDigit b = none := by
  obtain ⟨hspace, -⟩ | ⟨rfl, -⟩ | ⟨rfl, -⟩ := snapAfter_eq_some_iff.mp h
  · exact jsonDigit_of_space hspace
  · rfl
  · rfl

/-- The byte after a number token ends its element. -/
theorem snapStep_number {p q : SnapPlace} {v : Nat} {b : Byte} (hp : InNumber p v) (hb : snapAfter b = some q)
    (es : List Nat) : snapStep ⟨p, es⟩ b = some ⟨q, v :: es⟩ := by
  have hend : snapEnd ⟨p, es⟩ v b = some ⟨q, v :: es⟩ := snapEnd_eq_some_iff.mpr ⟨hb, rfl⟩
  obtain ⟨rfl, rfl⟩ | rfl := hp
  · exact hend
  · simpa only [snapStep, jsonDigit_of_snapAfter hb] using hend

/-- After a number token and white space, a comma or the closing bracket leads on, with the number listed. -/
theorem snapRead_afterNumber {p q : SnapPlace} {v : Nat} {post : List Byte} {b : Byte} (hp : InNumber p v)
    (hpost : SpaceText post) (hb : snapAfter b = some q) (es : List Nat) :
    snapRead ⟨p, es⟩ (post ++ [b]) = some ⟨q, v :: es⟩ := by
  cases post with
  | nil => exact snapRead_cons (snapStep_number hp hb es) []
  | cons c post =>
    obtain ⟨hc, hpost⟩ := List.forall_mem_cons.mp hpost
    have hspace : snapAfter c = some .element := snapAfter_eq_some_iff.mpr (.inl ⟨(jsonSpace_iff c).mpr hc, rfl⟩)
    have hstep : snapStep ⟨.element, v :: es⟩ b = some ⟨q, v :: es⟩ := by simp only [snapStep, hb, Option.map_some]
    rw [List.cons_append, snapRead_cons (snapStep_number hp hspace es),
      snapRead_append (snapRead_space .element hpost rfl _), snapRead_cons hstep]
    rfl

/-- One element with the comma or the bracket after it. -/
theorem snapRead_element {p q : SnapPlace} (hp : p = .opened ∨ p = .comma) {pre tok post : List Byte} {v : Nat}
    {b : Byte} (hpre : SpaceText pre) (htok : NumberText tok v) (hpost : SpaceText post) (hb : snapAfter b = some q)
    (es : List Nat) (rest : List Byte) :
    snapRead ⟨p, es⟩ (pre ++ tok ++ post ++ b :: rest) = snapRead ⟨q, v :: es⟩ rest := by
  have hspace : snapRead ⟨p, es⟩ pre = some ⟨p, es⟩ := by
    refine snapRead_space p hpre ?_ es
    obtain rfl | rfl := hp <;> rfl
  obtain ⟨place, hplace, hnumber⟩ := snapRead_number hp htok es
  calc snapRead ⟨p, es⟩ (pre ++ tok ++ post ++ b :: rest)
      = snapRead ⟨p, es⟩ (pre ++ (tok ++ (post ++ [b] ++ rest))) := by simp
    _ = snapRead ⟨p, es⟩ (tok ++ (post ++ [b] ++ rest)) := snapRead_append hspace _
    _ = snapRead ⟨place, es⟩ (post ++ [b] ++ rest) := snapRead_append hnumber _
    _ = snapRead ⟨q, v :: es⟩ rest := snapRead_append (snapRead_afterNumber hplace hpost hb es) _

theorem snapRead_elements {p : SnapPlace} (hp : p = .opened ∨ p = .comma) {inner : List Byte} {vs : List Half}
    (h : ElementsText inner vs) (es : List Nat) (rest : List Byte) :
    snapRead ⟨p, es⟩ (inner ++ 0x5D :: rest) = snapRead ⟨.closed, (vs.map BitVec.toNat).reverse ++ es⟩ rest := by
  induction h generalizing p es with
  | last hpre htok hpost => exact snapRead_element hp hpre htok hpost rfl es rest
  | @more pre tok post inner v vs hpre htok hpost _ ih =>
    calc snapRead ⟨p, es⟩ (pre ++ tok ++ post ++ 0x2C :: inner ++ 0x5D :: rest)
        = snapRead ⟨p, es⟩ (pre ++ tok ++ post ++ 0x2C :: (inner ++ 0x5D :: rest)) := by simp
      _ = snapRead ⟨.comma, v.toNat :: es⟩ (inner ++ 0x5D :: rest) := snapRead_element hp hpre htok hpost rfl es _
      _ = snapRead ⟨.closed, (vs.map BitVec.toNat).reverse ++ v.toNat :: es⟩ rest := ih (.inr rfl) _
      _ = snapRead ⟨.closed, ((v :: vs).map BitVec.toNat).reverse ++ es⟩ rest := by simp

theorem snapRead_of_snapshotText {bs : List Byte} {vs : List Half} (h : SnapshotText bs vs) :
    snapRead ⟨.start, []⟩ bs = some ⟨.closed, (vs.map BitVec.toNat).reverse⟩ := by
  obtain ⟨pre, inner, post, hpre, hpost, rfl, hinner⟩ := h
  have hbody : snapRead ⟨.opened, []⟩ (inner ++ 0x5D :: post) =
      snapRead ⟨.closed, (vs.map BitVec.toNat).reverse⟩ post := by
    obtain ⟨hinner, rfl⟩ | hinner := hinner
    · exact snapRead_append (snapRead_space .opened hinner rfl []) _
    · rw [snapRead_elements (.inl rfl) hinner, List.append_nil]
  calc snapRead ⟨.start, []⟩ (pre ++ 0x5B :: inner ++ 0x5D :: post)
      = snapRead ⟨.start, []⟩ (pre ++ 0x5B :: (inner ++ 0x5D :: post)) := by simp
    _ = snapRead ⟨.start, []⟩ (0x5B :: (inner ++ 0x5D :: post)) :=
        snapRead_append (snapRead_space .start hpre rfl []) _
    _ = snapRead ⟨.opened, []⟩ (inner ++ 0x5D :: post) := rfl
    _ = snapRead ⟨.closed, (vs.map BitVec.toNat).reverse⟩ post := hbody
    _ = some ⟨.closed, (vs.map BitVec.toNat).reverse⟩ := snapRead_space .closed hpost rfl _

/-! ### The values -/

/-- The values are those of the numbers read, each of 16 bits. -/
theorem snapValues_eq_some_iff {ns : List Nat} {vs : List Half} :
    snapValues ns = some vs ↔ ns = vs.map BitVec.toNat := by
  induction ns generalizing vs with
  | nil => cases vs <;> simp [snapValues]
  | cons n ns ih =>
    constructor
    · intro h
      rw [snapValues] at h
      split_ifs at h with hn
      obtain ⟨ws, hws, rfl⟩ := Option.map_eq_some_iff.mp h
      rw [List.map_cons, ← ih.mp hws, BitVec.toNat_ofNat, Nat.mod_eq_of_lt (by omega)]
    · intro h
      obtain _ | ⟨v, ws⟩ := vs
      · cases h
      obtain ⟨rfl, rfl⟩ := List.cons.inj h
      rw [snapValues, if_pos (by have := v.isLt; omega), ih.mpr rfl, Option.map_some, BitVec.ofNat_toNat,
        BitVec.setWidth_eq]

theorem decodeSnapshot_eq_some_iff {bs : List Byte} {vs : List Half} :
    decodeSnapshot bs = some vs ↔ snapRead ⟨.start, []⟩ bs = some ⟨.closed, (vs.map BitVec.toNat).reverse⟩ := by
  unfold decodeSnapshot
  constructor
  · intro h
    split at h
    next r hread =>
      obtain ⟨p, es⟩ := r
      split_ifs at h with hclosed
      obtain rfl : p = .closed := hclosed
      rw [hread, ← snapValues_eq_some_iff.mp h, List.reverse_reverse]
    next => cases h
  · intro h
    simp only [h, if_true, List.reverse_reverse]
    exact snapValues_eq_some_iff.mpr rfl

/-! ### The obligations -/

/-- Settles O16: the operands stand for themselves, and the body answers by the bound on the access. -/
theorem sreadAnswersTheRegisters : Obligations.SreadAnswersTheRegisters := by
  refine fun a c s hc hfit => ⟨fun hle => ⟨memRead s.reg a.toNat c.toNat, ?inRange,
    memRead_length _ _ _, fun k hk => ?word⟩,
    fun hlt => ⟨?outOfRange, rfl⟩⟩
  case inRange =>
    rw [exec_sread_of_fit hfit]
    exact transact_of_body hc (sreadBody_of_le hle)
  case word =>
    have hlen : k < (memRead s.reg a.toNat c.toNat).length := by rwa [memRead_length]
    rw [List.getElem?_eq_getElem hlen, memRead_getElem]
  case outOfRange =>
    rw [exec_sread_of_fit hfit]
    exact transact_of_body hc (sreadBody_of_lt hlt)

/-- Settles O17: a store of words that fit writes the words themselves, or nothing. -/
theorem swriteStoresAllOrNothing : Obligations.SwriteStoresAllOrNothing := by
  intro a n p s hc hfit hwords hp
  rw [exec_swrite_of_fit hfit hp, ← hp]
  refine ⟨fun hctx hwf hle => ?stored, fun hctx hlt => ?outOfRange, fun k hctx => ?readContext⟩
  case stored =>
    have hreg : (s.writeWords a.toNat p).reg = memWrite s.reg a.toNat p := by
      rw [State.writeWords_reg, map_registerValue_of_fit hwords]
    refine ⟨(s.writeWords a.toNat p).respond .ok .none,
      transact_next.mpr ⟨hc, fun _ => hctx, rfl, by rw [swriteBody_of_le hle]⟩,
      ⟨rfl, rfl, rfl, rfl, rfl, by simp [hctx]⟩, fun k hk => ?inside, fun x hx => ?outside,
      rfl, rfl, rfl, rfl, rfl, rfl⟩
    case inside => rw [State.respond_reg, hreg, readReg_memWrite_inside hwf hk, List.getElem?_eq_getElem hk]
    case outside => rw [State.respond_reg, hreg, memGet_memWrite_outside s.reg p hx]
  case outOfRange => exact transact_next.mpr ⟨hc, fun _ => hctx, rfl, by rw [swriteBody_of_lt hlt]⟩
  case readContext =>
    have hread : s.ctx ≠ .tick := by rw [hctx]; nofun
    exact transact_refused.mpr (.inr (.inl ⟨hc, ⟨rfl, hread⟩, rfl⟩))

/-- Settles O46: what the reader accepts completes a snapshot from its first place, and it reads every snapshot. -/
theorem snapshotReaderMeetsTheGrammar : Obligations.SnapshotReaderMeetsTheGrammar := by
  refine ⟨fun bytes vs => ⟨fun h => ?accepted, fun h => ?read⟩, rfl⟩
  case accepted =>
    have hfit : ∀ n ∈ (vs.map BitVec.toNat).reverse, n ≤ 65535 := by
      intro n hn
      obtain ⟨v, -, rfl⟩ := List.mem_map.mp (List.mem_reverse.mp hn)
      exact Nat.le_of_lt_succ v.isLt
    obtain ⟨ws, htext, heq⟩ := textFrom_of_snapRead (decodeSnapshot_eq_some_iff.mp h) hfit
    have hvs : vs = ws := by
      rw [List.reverse_reverse, List.reverse_nil, List.nil_append] at heq
      exact List.map_injective_iff.mpr BitVec.toNat_injective heq
    rw [hvs]
    exact textFrom_start_iff.mp htext
  case read => exact decodeSnapshot_eq_some_iff.mpr (snapRead_of_snapshotText h)

end Sys2Proof.Machine
end

section
/-!
PROOFS. The statements about 41_telemetry_encoder.md: the words of the two frames (R124, R125, R127, R128), their lengths
(R130), the status word (R122), the message counter (R123), the tick (R129, R131), and the zero delta (corner case of
R128).

Under the default layout a frame is its fields side by side (`stationFrame_of_default`, `deviceFrame_of_default`), so its
words are those of the fields. A tick is one count, one advance and one store of the encode's words, which either writes
them all or leaves the registers (`exec_tick_next`). A zero delta goes through rounding, which gives back every value
that is one already (`fOfScaled_fScaled`).
-/

namespace Sys2Proof.Machine

/-! ### The words of a device frame -/

/-- The default layout sets the fields side by side and fills the frame (41_telemetry_encoder.md R125). -/
theorem deviceFrame_of_default {c : Config} (hc : DefaultFrames c) (st : Byte) (msg : Half) (d : Draws) (lat lon : F64) :
    deviceFrame c st msg d lat lon =
      st :: 0 :: (be16 msg ++ (be16 (BitVec.ofNat 16 d.deviceLq) ++ (be64 lat ++ be64 lon))) := by
  obtain ⟨-, hlayout, horder, -, hbytes⟩ := hc
  simp [deviceFrame, hlayout, horder, hbytes, geoEncode, floatBytes, be16, be64, putBytes, List.replicate]

/-- Under the default layout and MSG_W a device encode gives the words of R125, with the position before its advance. -/
theorem encodeDevice_words {s : State} (hframes : DefaultFrames s.cfg) (hmsgW : s.cfg.msgW = 16) :
    (encodeDevice s).words = deviceWords s := by
  calc (encodeDevice s).words
      = pairWords (deviceFrame s.cfg (connectionStatus (s.ticks + 1) s.cfg.deviceDropPeriod s.draws.b)
          (counterField (s.countEncode s.draws.inc).msg) s.draws s.lat s.lon) := rfl
    _ = deviceWords s := by
        rw [deviceFrame_of_default hframes, counterField_nextMsg hmsgW, pairWords, ofBytes_connectionStatus,
          pairWords_be16_append, pairWords_be16_append, pairWords_be64_append, ← List.append_nil (be64 s.lon),
          pairWords_be64_append]
        rfl

/-! ### The lengths of the frames -/

theorem stationFrame_length (c : Config) (st : Byte) (msg : Half) (d : Draws) :
    (stationFrame c st msg d).length = c.stationFrameBytes := by simp [stationFrame]

theorem deviceFrame_length (c : Config) (st : Byte) (msg : Half) (d : Draws) (lat lon : F64) :
    (deviceFrame c st msg d lat lon).length = c.deviceFrameBytes := by simp [deviceFrame]

theorem encodeStation_words_length (s : State) : (encodeStation s).words.length = s.cfg.stationFrameBytes / 2 := by
  simp only [encodeStation, pairWords_length, stationFrame_length]

theorem encodeDevice_words_length (s : State) : (encodeDevice s).words.length = s.cfg.deviceFrameBytes / 2 := by
  simp only [encodeDevice, pairWords_length, deviceFrame_length]

/-- An admitted configuration has frames of whole words, and 22 bytes in a device frame (00_scope.md R6). -/
theorem frameBytes_of_configValid {c : Config} (hc : configValid c = true) :
    c.stationFrameBytes % 2 = 0 ∧ c.deviceFrameBytes = 22 := by
  obtain ⟨-, -, -, ⟨hstation, -, hdevice, -⟩, -⟩ := (admittedConfigurationsAreThoseOfTheScope c).mp hc
  exact ⟨hstation, hdevice⟩

/-! ### The status word -/

/-- The drop period of the class that encodes (41_telemetry_encoder.md R122, R129). -/
def dropPeriod (c : Config) (i : Instr) : Nat :=
  if i = .encs ∨ (i = .tick ∧ c.deviceClass = .station) then c.stationDropPeriod else c.deviceDropPeriod

theorem encodeStation_words_cons {s : State} (hframes : DefaultFrames s.cfg) :
    ∃ rest, (encodeStation s).words = statusWord (s.ticks + 1) s.cfg.stationDropPeriod s.draws.b :: rest := by
  simp only [encodeStation, stationFrame_of_default hframes, pairWords, ofBytes_connectionStatus]
  exact ⟨_, rfl⟩

theorem encodeDevice_words_cons {s : State} (hframes : DefaultFrames s.cfg) :
    ∃ rest, (encodeDevice s).words = statusWord (s.ticks + 1) s.cfg.deviceDropPeriod s.draws.b :: rest := by
  simp only [encodeDevice, deviceFrame_of_default hframes, pairWords, ofBytes_connectionStatus]
  exact ⟨_, rfl⟩

/-- The words of every encode start with the status word of its class. -/
theorem execBody_data_of_encodes {i : Instr} {s : State} (hframes : DefaultFrames s.cfg) (hi : encodes i = true) :
    ∃ rest, (execBody i s).data = .words (statusWord (s.ticks + 1) (dropPeriod s.cfg i) s.draws.b :: rest) := by
  obtain ⟨station, hstation⟩ := encodeStation_words_cons hframes
  obtain ⟨device, hdevice⟩ := encodeDevice_words_cons hframes
  cases i with
  | encs => exact ⟨station, congrArg ResponseData.words hstation⟩
  | encd => exact ⟨device, congrArg ResponseData.words hdevice⟩
  | tick =>
    cases hclass : s.cfg.deviceClass with
    | station => exact ⟨station, by simp [execBody, tickBody, encodeTick, dropPeriod, hclass, hstation]⟩
    | device => exact ⟨device, by simp [execBody, tickBody, encodeTick, dropPeriod, hclass, hdevice]⟩
  | hread | sread | swrite | gpos | gadv | genc => cases hi

theorem statusWord_cases (ticks period : Nat) (b : Bool) :
    (statusWord ticks period b = 0x0000 ∧ ticks % period = 0 ∧ b = false) ∨
      (statusWord ticks period b = 0x0100 ∧ ¬(ticks % period = 0 ∧ b = false)) := by
  unfold statusWord
  split
  next hdrop => exact .inl ⟨rfl, hdrop⟩
  next hdrop => exact .inr ⟨rfl, hdrop⟩

/-! ### Responses -/

/-- The one response of an instruction is its body's, to the context that issued it. -/
theorem exec_responses {i : Instr} {s t : State} (h : exec i s = .next t) :
    t.responses = s.responses ++ [⟨s.ctx, (execBody i s).status, (execBody i s).data⟩] := by
  obtain ⟨-, rfl⟩ := exec_next_iff.mp h
  have hsame := execBody_sameInterfaces i s
  rw [State.respond_responses, hsame.responses, hsame.ctx]

/-! ### The message counter -/

/-- Under the spec's MSG_W an encode counts modulo 65536, by its own draw (41_telemetry_encoder.md R123). -/
theorem exec_msg_of_encodes {i : Instr} {s t : State} (hmsgW : s.cfg.msgW = 16) (hi : encodes i = true)
    (h : exec i s = .next t) : t.msg = (s.msg + s.draws.inc) % 65536 ∧
      (incRange s.cfg i).lo ≤ s.draws.inc ∧ s.draws.inc ≤ (incRange s.cfg i).hi := by
  obtain ⟨-, _, _, -, -, hdraws, -⟩ := exec_answersOnly h
  obtain ⟨-, hmsg, hrange⟩ := exec_counters_of_encodes h hi
  rw [hdraws, hmsgW] at hmsg
  exact ⟨hmsg, hdraws ▸ hrange⟩

/-! ### Admitted encodes -/

theorem admitted_encs {s : State} (hvalid : configValid s.cfg = true) (hctx : s.ctx = .tick)
    (hdraws : StationDraws s.cfg s.draws) : Admitted .encs s := ⟨hvalid, fun _ => hctx, hdraws, rfl⟩

theorem admitted_encd {s : State} (hvalid : configValid s.cfg = true) (hctx : s.ctx = .tick)
    (hdraws : DeviceDraws s.cfg s.draws) : Admitted .encd s := ⟨hvalid, fun _ => hctx, hdraws, rfl⟩

theorem Admitted.ctx_eq_tick {s : State} (h : Admitted .tick s) : s.ctx = .tick := by
  obtain ⟨-, htick, -⟩ := h
  exact htick rfl

/-- Where a tick of the station class is admitted, so is the station encode it does. -/
theorem Admitted.encs_of_tick {s : State} (h : Admitted .tick s) (hclass : s.cfg.deviceClass = .station) :
    Admitted .encs s := by
  have hctx := h.ctx_eq_tick
  obtain ⟨hvalid, -, hdraws, -⟩ := h
  simp only [DrawsAdmitted, hclass] at hdraws
  exact admitted_encs hvalid hctx hdraws.1

/-- Where a tick of the device class is admitted, so is the device encode it does. -/
theorem Admitted.encd_of_tick {s : State} (h : Admitted .tick s) (hclass : s.cfg.deviceClass = .device) :
    Admitted .encd s := by
  have hctx := h.ctx_eq_tick
  obtain ⟨hvalid, -, hdraws, -⟩ := h
  simp only [DrawsAdmitted, hclass] at hdraws
  exact admitted_encd hvalid hctx hdraws

/-! ### A tick -/

/-- A tick counts once, moves once and answers the encode's words, which it writes whole where they fit the
capacity and not at all where they do not (41_telemetry_encoder.md R129, R131). -/
theorem exec_tick_next {s : State} (h : Admitted .tick s) : ∃ reg st,
    exec .tick s = .next (State.respond
      { (s.countEncode s.draws.inc).advance s.draws.dlat s.draws.dlon with reg := reg } st
      (.words (encodeTick s).words)) ∧
    (s.cfg.frameBase + (encodeTick s).words.length ≤ s.cap → st = .ok ∧
      reg = memWrite s.reg s.cfg.frameBase ((encodeTick s).words.map (registerValue s.cfg))) ∧
    (s.cap < s.cfg.frameBase + (encodeTick s).words.length → st = .outOfRange ∧ reg = s.reg) := by
  rw [exec_next_iff.mpr ⟨h, rfl⟩, execBody_tick]
  obtain ⟨hfits, hstore⟩ | ⟨hfits, hstore⟩ :=
      storeWords_cases (movedBy .tick (countedBy .tick s)) s.cfg.frameBase (encodeTick s).words
  · rw [hstore]
    exact ⟨_, _, rfl, fun _ => ⟨rfl, rfl⟩, fun hlt => absurd hfits (Nat.not_le_of_lt hlt)⟩
  · rw [hstore]
    exact ⟨_, _, rfl, fun hle => absurd hle (Nat.not_le_of_lt hfits), fun _ => ⟨rfl, rfl⟩⟩

theorem encodeTick_words_of_station {s : State} (hclass : s.cfg.deviceClass = .station) :
    (encodeTick s).words = (encodeStation s).words := by simp only [encodeTick, hclass]

theorem encodeTick_words_of_device {s : State} (hclass : s.cfg.deviceClass = .device) :
    (encodeTick s).words = (encodeDevice s).words := by simp only [encodeTick, hclass]

/-! ### Rounding a value and adding a zero -/

/-- The magnitude nearest to a magnitude's own value is that magnitude. -/
theorem roundedMagnitude_magnitudeUnits (mag : Nat) : roundedMagnitude (magnitudeUnits mag) = mag := by
  obtain ⟨hle, -⟩ := roundedMagnitude_nearest (magnitudeUnits mag) (Int.natAbs_natCast (magnitudeUnits mag))
  exact magnitudeUnits_strictMono.injective (by omega)

theorem fOfMagnitude_fSign_fMagnitude (x : F64) : fOfMagnitude (fSign x) (fMagnitude x) = x := by
  apply BitVec.eq_of_toNat_eq
  have hlt := x.isLt
  rw [fOfMagnitude_toNat _ (fMagnitude_lt x), fMagnitude_eq]
  simp only [fSign_eq_true_iff]
  split <;> omega

theorem fScaled_eq_zero_iff (x : F64) : fScaled x = 0 ↔ fMagnitude x = 0 := by
  rw [← Int.natAbs_eq_zero, natAbs_fScaled]
  exact magnitudeUnits_strictMono.injective.eq_iff' magnitudeUnits_zero

theorem decide_fScaled_lt_zero {x : F64} (hx : fScaled x ≠ 0) : decide (fScaled x < 0) = fSign x := by
  rw [Bool.eq_iff_iff, decide_eq_true_iff]
  rw [fScaled_eq] at hx ⊢
  split at hx
  next hneg => exact iff_of_true (by rw [if_pos hneg]; omega) hneg
  next hpos => exact iff_of_false (by rw [if_neg hpos]; omega) hpos

theorem fIsZero_iff (x : F64) : fIsZero x = true ↔ x = 0 ∨ x = 0x8000000000000000 := by
  constructor
  · intro h
    have hx := fOfMagnitude_fSign_fMagnitude x
    rw [beq_iff_eq.mp h] at hx
    cases hsign : fSign x <;> rw [hsign] at hx
    · exact .inl hx.symm
    · exact .inr hx.symm
  · rintro (rfl | rfl) <;> decide

/-- Rounding gives back every finite value, a zero with the sign it has. -/
theorem fOfScaled_fScaled {x : F64} (hx : fIsFinite x = true) {zeroSign : Bool}
    (hzero : fIsZero x = true → zeroSign = fSign x) : fOfScaled (fScaled x) zeroSign = x := by
  have hmag := (fIsFinite_iff x).mp hx
  unfold fOfScaled
  split
  next h =>
    have hzeroMag := (fScaled_eq_zero_iff x).mp h
    rw [hzero (beq_iff_eq.mpr hzeroMag), ← hzeroMag, fOfMagnitude_fSign_fMagnitude]
  next h =>
    rw [decide_fScaled_lt_zero h, natAbs_fScaled, roundMagnitude_one, roundedMagnitude_magnitudeUnits,
      Nat.min_eq_left hmag.le, fOfMagnitude_fSign_fMagnitude]

theorem fIsFinite_of_isZero {d : F64} (hd : fIsZero d = true) : fIsFinite d = true := by
  obtain rfl | rfl := (fIsZero_iff d).mp hd <;> decide

/-- A zero delta rounds a finite value again, a zero sum with the sign that both addends have. -/
theorem fAdd_zero_of_finite (nan : F64) {x d : F64} (hx : fIsFinite x = true) (hd : fIsZero d = true) :
    fAdd nan x d = fOfScaled (fScaled x) (fSign x && fSign d) := by
  rw [fAdd_of_finite nan hx (fIsFinite_of_isZero hd), (fScaled_eq_zero_iff d).mpr (beq_iff_eq.mp hd), add_zero]

/-- A zero delta does not touch a NaN (notes/assumptions/10.md) or an infinity. -/
theorem fAdd_zero_of_not_finite (nan : F64) {x d : F64} (hx : fIsFinite x = false) (hd : fIsZero d = true) :
    fAdd nan x d = x := by
  have hdfinite := fIsFinite_of_isZero hd
  unfold fAdd
  by_cases hnan : fIsNaN x = true
  · rw [if_pos hnan, if_pos hd]
  · have hinf : fIsInf x = true := by
      rw [fIsInf_iff]
      rw [fIsNaN_iff] at hnan
      rw [Bool.eq_false_iff, ne_eq, fIsFinite_iff] at hx
      omega
    simp [hnan, hinf, fIsNaN_of_finite hdfinite, fIsInf_of_finite hdfinite]

/-! ### The obligations -/

/-- Settles O22: the encode is admitted, counts, and its words are the fields'. -/
theorem encsBuildsTheStationFrame : Obligations.EncsBuildsTheStationFrame := by
  intro s hvalid hframes hmsgW hctx hdraws
  rw [exec_next_iff.mpr ⟨admitted_encs hvalid hctx hdraws, rfl⟩, ← encodeStation_words hframes hmsgW]
  rfl

/-- Settles O23: the encode is admitted, counts and moves, and its words are the fields'. -/
theorem encdBuildsTheDeviceFrame : Obligations.EncdBuildsTheDeviceFrame := by
  intro s hvalid hframes hmsgW hctx hdraws
  rw [exec_next_iff.mpr ⟨admitted_encd hvalid hctx hdraws, rfl⟩, ← encodeDevice_words hframes hmsgW]
  rfl

/-- Settles O24: a write into a frame keeps its length, and pairing halves it. -/
theorem frameLengthsAreFixed : Obligations.FrameLengthsAreFixed := by
  intro s hvalid hctx
  obtain ⟨hstation, hdevice⟩ := frameBytes_of_configValid hvalid
  refine ⟨fun hdraws => ?station, fun hdraws => ?device,
    fun st msg d lat lon => ⟨stationFrame_length _ _ _ _, deviceFrame_length _ _ _ _ _ _⟩⟩
  case station =>
    have hexec := exec_next_iff.mpr ⟨admitted_encs hvalid hctx hdraws, rfl⟩
    have hlen := encodeStation_words_length s
    exact ⟨_, _, hexec, hctx ▸ exec_responses hexec, by omega, rfl, fun _ => rfl⟩
  case device =>
    have hexec := exec_next_iff.mpr ⟨admitted_encd hvalid hctx hdraws, rfl⟩
    have hlen := encodeDevice_words_length s
    exact ⟨_, _, hexec, hctx ▸ exec_responses hexec, by omega, by omega, rfl, fun _ => rfl, rfl, rfl⟩

/-- Settles O25: the words answered start with the status word of the class that encodes. -/
theorem statusDropsOnlyOnThePeriod : Obligations.StatusDropsOnlyOnThePeriod := by
  rintro i s t w ws hframes hi hexec ⟨status, hresponses⟩ period hperiod
  have hencodes : encodes i = true := by obtain rfl | rfl | rfl := hi <;> rfl
  obtain ⟨rest, hdata⟩ := execBody_data_of_encodes hframes hencodes
  rw [exec_responses hexec, hdata] at hresponses
  have hanswer := List.singleton_inj.mp (List.append_cancel_left hresponses)
  have hw : statusWord (s.ticks + 1) (dropPeriod s.cfg i) s.draws.b = w := by
    injection hanswer with _ _ hwords
    injection hwords with hcons
    exact (List.cons.inj hcons).1
  rw [← hw, hperiod]
  exact statusWord_cases _ _ _

/-- Settles O26: every encode counts alike, and 65535 is the example. -/
theorem messageCounterWraps : Obligations.MessageCounterWraps := by
  refine ⟨fun i s t => exec_msg_of_encodes, fun s t hmsgW hexec hfull => ?_⟩
  obtain ⟨hmsg, -⟩ := exec_msg_of_encodes hmsgW rfl hexec
  constructor <;> intro hinc <;> rw [hmsg, hfull, hinc]

/-- Settles O28: the store comes after the count and the advance, and its words are those of the class's own encode. -/
theorem tickEncodesAdvancesAndWrites : Obligations.TickEncodesAdvancesAndWrites := by
  intro s h hwf
  have hctx := h.ctx_eq_tick
  obtain ⟨reg, st, hexec, hle, hlt⟩ := exec_tick_next h
  refine ⟨_, (encodeTick s).words, hexec, rfl, fun _ => rfl, rfl, rfl, rfl, rfl, rfl, rfl, rfl, rfl, rfl,
    fun hclass => ?station, fun hclass => ?device, fun hfits => ?stored, fun hover => ?outOfRange⟩
  case station =>
    have hencs := exec_next_iff.mpr ⟨h.encs_of_tick hclass, rfl⟩
    rw [encodeTick_words_of_station hclass]
    exact ⟨_, hencs, hctx ▸ exec_responses hencs⟩
  case device =>
    have hencd := exec_next_iff.mpr ⟨h.encd_of_tick hclass, rfl⟩
    rw [encodeTick_words_of_device hclass]
    exact ⟨_, hencd, hctx ▸ exec_responses hencd⟩
  case stored =>
    obtain ⟨rfl, rfl⟩ := hle hfits
    refine ⟨hctx ▸ rfl, fun j hj hwidth => ?inside, fun x hx => ?outside⟩
    case inside =>
      have hlen : j < ((encodeTick s).words.map (registerValue s.cfg)).length := by rwa [List.length_map]
      rw [State.respond_reg, readReg_memWrite_inside hwf hlen, List.getElem_map, registerValue_of_lt hwidth]
    case outside => exact memGet_memWrite_outside s.reg _ (by rwa [List.length_map])
  case outOfRange =>
    obtain ⟨rfl, rfl⟩ := hlt hover
    exact ⟨hctx ▸ rfl, rfl⟩

/-- Settles O36: a finite coordinate is rounded to itself, a zero one to the sign both addends have; any other is kept. -/
theorem zeroDeltaKeepsThePosition : Obligations.ZeroDeltaKeepsThePosition := by
  intro nan x d hd
  cases hx : fIsFinite x with
  | false =>
    have hne : x ≠ 0x8000000000000000 := by rintro rfl; exact absurd hx (by decide)
    rw [fAdd_zero_of_not_finite nan hx hd, if_neg fun h => hne h.1]
  | true =>
    rw [fAdd_zero_of_finite nan hx hd]
    split
    next h => rw [h.1, h.2]; decide
    next h =>
      refine fOfScaled_fScaled hx fun hzero => ?_
      obtain rfl | rfl := (fIsZero_iff x).mp hzero
      · rfl
      · obtain rfl := ((fIsZero_iff d).mp hd).resolve_left fun hd0 => h ⟨rfl, hd0⟩
        rfl

end Sys2Proof.Machine
end

section
/-!
PROOFS. The statements about 42_read_handler.md: HREAD's buffer in range and out of range (R152 to R154), and its data
bytes as those of the words that SREAD answers (R156).

Two data bytes cover one register, high byte first, so `2n` data bytes are the big-endian words of `n` registers
(`memRead_flatMap_be16`); an odd byte count leaves out the low byte of the last of them.
-/

namespace Sys2Proof.Machine

/-! ### HREAD on operands that fit -/

theorem exec_hread_of_fit {a c : Half} {s : State} (hfit : FieldsFit s.cfg a c) :
    exec (.hread a c) s = transact false true (hreadBody a.toNat c.toNat) s := by
  obtain ⟨ha, hc⟩ := hfit
  rw [← addressOf_of_lt ha, ← countOf_of_lt hc]
  rfl

theorem hreadBody_of_le {a c : Nat} {s : State} (h : a + registersOfBytes c ≤ s.cap) :
    hreadBody a c s = ⟨s, .ok, .bytes (hreadBuffer s.reg a c)⟩ := if_pos ((fits_iff s a _).mpr h)

theorem hreadBody_of_lt {a c : Nat} {s : State} (h : s.cap < a + registersOfBytes c) :
    hreadBody a c s = ⟨s, .illegalDataAddress, .bytes (List.replicate (c + 1) 0)⟩ :=
  if_neg fun hfits => absurd ((fits_iff s a _).mp hfits) (by omega)

theorem exec_hread_of_le {a c : Half} {s : State} (hc : configValid s.cfg = true) (hfit : FieldsFit s.cfg a c)
    (h : a.toNat + registersOfBytes c.toNat ≤ s.cap) :
    exec (.hread a c) s = .next (s.respond .ok (.bytes (hreadBuffer s.reg a.toNat c.toNat))) :=
  (exec_hread_of_fit hfit).trans (transact_of_body hc (hreadBody_of_le h))

theorem exec_hread_of_lt {a c : Half} {s : State} (hc : configValid s.cfg = true) (hfit : FieldsFit s.cfg a c)
    (h : s.cap < a.toNat + registersOfBytes c.toNat) :
    exec (.hread a c) s =
      .next (s.respond .illegalDataAddress (.bytes (List.replicate (c.toNat + 1) 0))) :=
  (exec_hread_of_fit hfit).trans (transact_of_body hc (hreadBody_of_lt h))

/-! ### The bytes of the buffer -/

theorem hreadByte_toNat (m : Memory) (a i : Nat) :
    (hreadByte m a i).toNat =
      if i % 2 = 0 then (readReg m (a + i / 2)).toNat / 256 else (readReg m (a + i / 2)).toNat % 256 := by
  unfold hreadByte
  split
  · exact highByte_toNat _
  · exact lowByte_toNat _

theorem hreadByte_even (m : Memory) (a k : Nat) : hreadByte m a (2 * k) = highByte (readReg m (a + k)) := by
  rw [hreadByte, if_pos (Nat.mul_mod_right 2 k), Nat.mul_div_cancel_left k (by decide)]

theorem hreadByte_odd (m : Memory) (a k : Nat) : hreadByte m a (2 * k + 1) = lowByte (readReg m (a + k)) := by
  rw [hreadByte, if_neg (by omega), show (2 * k + 1) / 2 = k by omega]

@[simp] theorem hreadBuffer_length (m : Memory) (a c : Nat) : (hreadBuffer m a c).length = c + 1 := by
  simp [hreadBuffer]

theorem hreadBuffer_getElem?_data (m : Memory) (a : Nat) {c i : Nat} (hi : i < c) :
    (hreadBuffer m a c)[1 + i]? = some (hreadByte m a i) := by
  simp [hreadBuffer, Nat.add_comm 1 i, hi]

/-- The data bytes of `n` whole registers are those of their words, high byte first (20_memory.md R52). -/
theorem memRead_flatMap_be16 (m : Memory) (a n : Nat) :
    (memRead m a n).flatMap be16 = (List.range (2 * n)).map (hreadByte m a) := by
  induction n with
  | zero => rfl
  | succ n ih =>
    calc (memRead m a (n + 1)).flatMap be16
        = (memRead m a n).flatMap be16 ++ be16 (readReg m (a + n)) := by simp [memRead, List.range_succ]
      _ = (List.range (2 * n)).map (hreadByte m a) ++ [hreadByte m a (2 * n), hreadByte m a (2 * n + 1)] := by
          rw [ih, hreadByte_even, hreadByte_odd, be16]
      _ = (List.range (2 * (n + 1))).map (hreadByte m a) := by
          simp [Nat.mul_add, List.range_succ]

/-- The data bytes of a read are the first of those of the registers it covers (42_read_handler.md R156). -/
theorem hreadBuffer_drop_one (m : Memory) (a c : Nat) :
    (hreadBuffer m a c).drop 1 = ((memRead m a (registersOfBytes c)).flatMap be16).take c := by
  have hcover : min c (2 * registersOfBytes c) = c := by unfold registersOfBytes; omega
  rw [memRead_flatMap_be16, ← List.map_take, List.take_range, hcover]
  rfl

/-! ### The obligations -/

/-- Settles O19: the operands stand for themselves, and the body answers by the bound on the registers it covers. -/
theorem hreadAnswersTheBuffer : Obligations.HreadAnswersTheBuffer := by
  refine fun a c s hc hfit => ⟨fun hle => ?inRange, fun hlt => ?outOfRange⟩
  case inRange =>
    refine ⟨hreadBuffer s.reg a.toNat c.toNat, exec_hread_of_le hc hfit hle, hreadBuffer_length _ _ _,
      ⟨BitVec.ofNat 8 c.toNat, rfl, BitVec.toNat_ofNat _ _⟩, fun i hi => ?data⟩
    case data => exact ⟨_, hreadBuffer_getElem?_data s.reg a.toNat hi, hreadByte_toNat s.reg a.toNat i⟩
  case outOfRange =>
    exact ⟨List.replicate (c.toNat + 1) 0, exec_hread_of_lt hc hfit hlt, List.length_replicate,
      fun b => List.eq_of_mem_replicate⟩

/-- Settles O20: the registers that HREAD covers are those that SREAD answers; 4 bytes from register 8 of 10 are two
registers, where SREAD asks for four. -/
theorem hreadBytesAreSreadWordsInBytes : Obligations.HreadBytesAreSreadWordsInBytes := by
  refine ⟨fun a c n s hc hfit hn hle => ?inRange, fun s hc hfit hcap => ⟨?sreadFails, ?hreadSucceeds⟩⟩
  case inRange =>
    have hcovered : n.toNat = registersOfBytes c.toNat := hn
    obtain ⟨haddr, hcount⟩ := hfit
    have hlength : n.toNat < 2 ^ s.cfg.cntW := lt_of_le_of_lt (by omega) hcount
    refine ⟨hreadBuffer s.reg a.toNat c.toNat, memRead s.reg a.toNat n.toNat,
      exec_hread_of_le hc ⟨haddr, hcount⟩ (hcovered ▸ hle), ?sread, ?bytes⟩
    case sread => exact (exec_sread_of_fit ⟨haddr, hlength⟩).trans (transact_of_body hc (sreadBody_of_le hle))
    case bytes => exact hcovered ▸ hreadBuffer_drop_one s.reg a.toNat c.toNat
  case sreadFails =>
    have hover : s.cap < (8#16).toNat + (4#16).toNat := hcap ▸ by decide
    exact (exec_sread_of_fit hfit).trans (transact_of_body hc (sreadBody_of_lt hover))
  case hreadSucceeds =>
    have hfits : (8#16).toNat + registersOfBytes (4#16).toNat ≤ s.cap := hcap ▸ by decide
    exact ⟨_, exec_hread_of_le hc hfit hfits⟩

end Sys2Proof.Machine
end

section
/-!
PROOFS. The statements about 43_geo_simulator.md: GPOS (R171), GADV (R172), and the encoded position of GENC (R173,
R174).

GPOS and GENC are transactions that nothing refuses under an admitted configuration. A GADV whose draws lie outside
their set is refused (`exec_of_not_drawsAdmitted`), and a delta lies within GEO_STEP exactly as `fAbsLe_iff` says.
Reading the bytes of a binary64 field from the front, what is read so far is the pattern without the bits that are still
to come (`shift_in_byte`), so at the end it is the pattern (`foldl_be64`).
-/

namespace Sys2Proof.Machine

/-! ### Draws outside their set -/

theorem fAbsLe_iff (x bound : F64) :
    fAbsLe x bound = true ↔ fIsNaN x = false ∧ fIsNaN bound = false ∧ fMagnitude x ≤ fMagnitude bound := by
  simp [fAbsLe, and_assoc]

/-- A delta that is NaN or larger than the step is outside its set (43_geo_simulator.md R172). -/
theorem not_fAbsLe {x bound : F64} (h : fIsNaN x = true ∨ fMagnitude bound < fMagnitude x) :
    ¬ fAbsLe x bound = true := by
  rw [fAbsLe_iff]
  rintro ⟨hnumber, -, hle⟩
  obtain hnan | hlarge := h
  · exact absurd hnan (Bool.eq_false_iff.mp hnumber)
  · exact absurd hle (Nat.not_le_of_lt hlarge)

/-- An instruction that only its draws keep from running is refused for them (60_exceptions.md R211(a)). -/
theorem exec_of_not_drawsAdmitted {i : Instr} {s : State} (hc : configValid s.cfg = true)
    (hctx : mutates i = true → s.ctx = .tick) (hwf : i.wellFormed = true) (hdraws : ¬ DrawsAdmitted s.cfg s.draws i) :
    exec i s = .refused .drawOutOfSet := by
  have hcheck : instrDrawsOk i s = false := Bool.eq_false_iff.mpr fun hok => hdraws ((instrDrawsOk_iff i s).mp hok)
  have hissuer : ¬(mutates i = true ∧ s.ctx ≠ .tick) := fun ⟨hmutates, hread⟩ => hread (hctx hmutates)
  rw [exec_of_wellFormed hwf]
  exact transact_refused.mpr (.inr (.inr ⟨hc, hissuer, hcheck, rfl⟩))

/-! ### The bytes of a position -/

/-- A pattern down to bit `k + 8`, with the byte at bit `k` put behind it, is the pattern down to bit `k`. -/
theorem shift_in_byte (x : F64) (k : Nat) :
    x.toNat / 2 ^ (k + 8) * 256 + (x.extractLsb' k 8).toNat = x.toNat / 2 ^ k := by
  rw [BitVec.extractLsb'_toNat, Nat.shiftRight_eq_div_pow, pow_add, ← Nat.div_div_eq_div_mul]
  exact Nat.div_add_mod' _ 256

/-- The eight bytes of a pattern, read with the most significant first, are its value (20_memory.md R54). -/
theorem foldl_be64 (x : F64) : (be64 x).foldl (fun n b => n * 256 + b.toNat) 0 = x.toNat := by
  have hfirst : 0 * 256 + (x.extractLsb' 56 8).toNat = x.toNat / 2 ^ 56 := by
    rw [← shift_in_byte x 56, Nat.div_eq_of_lt x.isLt]
  simp only [be64, List.foldl_cons, List.foldl_nil]
  rw [hfirst, shift_in_byte x 48, shift_in_byte x 40, shift_in_byte x 32, shift_in_byte x 24, shift_in_byte x 16,
    shift_in_byte x 8, shift_in_byte x 0, pow_zero, Nat.div_one]

theorem floatBytes_big (x : F64) : floatBytes .big x = be64 x := rfl

/-- The other order is the default one from the back (notes/assumptions/14.md). -/
theorem reverse_floatBytes_little (x : F64) : (floatBytes .little x).reverse = be64 x := List.reverse_reverse _

/-! ### The obligations -/

/-- Settles O33: the answer is the two encoded fields, and each field's bytes in their order are the value's. -/
theorem gencAnswersTheEncodedPosition : Obligations.GencAnswersTheEncodedPosition := by
  intro s hc
  refine ⟨floatBytes s.cfg.floatOrder s.lat, floatBytes s.cfg.floatOrder s.lon,
    exec_next_iff.mpr ⟨⟨hc, nofun, trivial, rfl⟩, rfl⟩, floatBytes_length _ _, floatBytes_length _ _,
    fun hbig => ?big, fun hlittle => ?little⟩
  case big =>
    rw [hbig, floatBytes_big, floatBytes_big]
    exact ⟨foldl_be64 _, foldl_be64 _⟩
  case little =>
    rw [hlittle, reverse_floatBytes_little, reverse_floatBytes_little]
    exact ⟨foldl_be64 _, foldl_be64 _⟩

/-- Settles O31: GPOS mutates nothing and takes no draw, so an admitted configuration is all it needs. -/
theorem gposAnswersThePosition : Obligations.GposAnswersThePosition := fun _ hc =>
  exec_next_iff.mpr ⟨⟨hc, nofun, trivial, rfl⟩, rfl⟩

/-- Settles O32: deltas in their set are admitted and the body is one advance; either delta outside it is refused. -/
theorem gadvTakesOneStep : Obligations.GadvTakesOneStep := by
  refine fun s hc hctx => ⟨fun hdraws => ?step, fun houtside => ?refusal⟩
  case step => exact exec_next_iff.mpr ⟨⟨hc, fun _ => hctx, hdraws, rfl⟩, rfl⟩
  case refusal =>
    refine exec_of_not_drawsAdmitted hc (fun _ => hctx) rfl fun ⟨hlat, hlon⟩ => ?_
    obtain hnan | hlarge | hlonOutside := houtside
    · exact not_fAbsLe (.inl hnan) hlat
    · exact not_fAbsLe (.inr hlarge) hlat
    · exact not_fAbsLe hlonOutside hlon

end Sys2Proof.Machine
end

section
/-!
PROOFS. The statements about 60_exceptions.md: what is refused and what completes (R211, R227), the idle step (R210),
and the status codes (R202).

There is no fault, so an instruction that is not admitted is refused and one that is completes (`exec_next_iff`). A step
adds to its instruction's refusals those of the decoder and of an illegal word, and with a bad configuration each of the
three is refused (`serve_of_configValid_false`).
-/

namespace Sys2Proof.Machine

/-! ### What an instruction answers -/

theorem exists_exec_next_iff {i : Instr} {s : State} : (∃ t, exec i s = .next t) ↔ Admitted i s :=
  ⟨fun ⟨_, hnext⟩ => (exec_next_iff.mp hnext).1, exists_exec_next⟩

theorem exists_exec_refused_iff {i : Instr} {s : State} : (∃ r, exec i s = .refused r) ↔ ¬ Admitted i s := by
  refine ⟨fun ⟨r, hrefused⟩ hadmitted => ?_, exists_exec_refused⟩
  obtain ⟨t, hnext⟩ := exists_exec_next hadmitted
  exact nomatch hrefused.symm.trans hnext

/-! ### What a step refuses -/

theorem serve_of_payloadMismatch {r : Request} (h : decode r.word r.payload = .payloadMismatch) (s : State) :
    serve r s = .refused .payloadLength := by simp only [serve, h]

theorem answerIllegal_of_configValid_false {s : State} (h : configValid s.cfg = false) :
    answerIllegal s = .refused .badConfiguration := transact_refused.mpr (.inl ⟨h, rfl⟩)

/-- Under a bad configuration every request is refused, whatever its word decodes to (notes/assumptions/22.md). -/
theorem serve_of_configValid_false {s : State} (h : configValid s.cfg = false) (r : Request) :
    ∃ q, serve r s = .refused q := by
  unfold serve
  split
  next i _ => exact exists_exec_refused fun ⟨hvalid, _⟩ => Bool.eq_false_iff.mp h hvalid
  next => exact ⟨_, answerIllegal_of_configValid_false h⟩
  next => exact ⟨_, rfl⟩

theorem fetch_request_cfg {s t : State} {r : Request} (h : fetch s = .request r t) : t.cfg = s.cfg := by
  obtain ⟨before, after, turns, -, rfl, -⟩ := fetch_request h
  rfl

/-! ### What reset refuses -/

theorem resetDrawOk_eq_false_iff (inp : ResetInputs) :
    resetDrawOk inp = false ↔
      inp.geoInit = none ∧ (fIsFinite inp.geoDraw.lat = false ∨ fIsFinite inp.geoDraw.lon = false) := by
  rw [Bool.eq_false_iff, ne_eq, resetDrawOk_iff, Classical.not_imp, not_and_or, Bool.not_eq_true, Bool.not_eq_true]

theorem exists_bootReset_refused_iff {c : Config} {inp : ResetInputs} :
    (∃ r, bootReset c inp = .refused r) ↔ configValid c = false ∨ resetDrawOk inp = false := by
  unfold bootReset
  cases configValid c <;> cases resetDrawOk inp <;> simp

/-! ### A step that finds nothing to serve -/

theorem fetch_of_no_request {s : State} (hturns : s.turns = []) (hpending : s.pending = []) : fetch s = .idle s := by
  simp only [fetch, hturns, hpending]

theorem fetch_of_passing_turn {s : State} {c : Context} {turns : List Context} (hturns : s.turns = c :: turns)
    (hpending : ∀ q ∈ s.pending, q.ctx ≠ c) : fetch s = .idle { s with turns := turns } := by
  simp only [fetch, hturns, takeOf_none.mpr hpending]

/-! ### The obligations -/

/-- Settles O12: an instruction by its admission, a step by what its request decodes to, reset by its two checks. -/
theorem refusalsAreExactlyTheListedOnes : Obligations.RefusalsAreExactlyTheListedOnes := by
  refine ⟨fun i s => exists_exec_refused_iff, fun i s => exists_exec_next_iff, fun s t r hfetch hcause => ?step,
    fun c inp => ?reset⟩
  case step =>
    rw [step_of_request hfetch]
    obtain hmismatch | hinvalid := hcause
    · exact ⟨_, serve_of_payloadMismatch hmismatch t⟩
    · exact serve_of_configValid_false (fetch_request_cfg hfetch ▸ hinvalid) r
  case reset => rw [exists_bootReset_refused_iff, resetDrawOk_eq_false_iff]

/-- Settles O11: in both cases the fetch finds nothing, and an idle step leaves what the fetch leaves. -/
theorem nothingHappensWithoutARequest : Obligations.NothingHappensWithoutARequest := fun _ =>
  ⟨fun hturns hpending => step_of_idle (fetch_of_no_request hturns hpending),
    fun _ _ hturns hpending => step_of_idle (fetch_of_passing_turn hturns hpending)⟩

/-- Settles O48: one code for each status, and OUT_OF_RANGE is the status ILLEGAL_DATA_ADDRESS under another name. -/
theorem statusCodesAreThree : Obligations.StatusCodesAreThree := by
  refine ⟨rfl, rfl, rfl, rfl, fun st => ?_⟩
  cases st with
  | ok | illegalCommand | illegalDataAddress => decide

end Sys2Proof.Machine
end

section
/-!
PROOFS. The statements about 70_reset_and_hazards.md: the state after reset and its invariant (R220, R223), the snapshot
status (R221), and the read of a frame after the tick that wrote it (R226).

Reset makes its register file by one write of the snapshot's elements, or none, from the empty memory
(`resetStore_registersOk`). A tick that answers OK has written the words it answers (`exec_tick_of_ok`), and a read of
the registers that a write filled gives the words written (`memRead_memWrite_same`).
-/

namespace Sys2Proof.Machine

/-! ### The read after a tick -/

/-- A read of the registers that a write filled gives the words written. -/
theorem memRead_memWrite_same {m : Memory} (hm : Memory.wf m = true) (a : Nat) (vs : List Half) :
    memRead (memWrite m a vs) a vs.length = vs := by
  refine List.ext_getElem (memRead_length _ _ _) fun k hread hk => ?_
  rw [memRead_getElem _ _ _ _ hread, readReg_memWrite_inside hm hk]

theorem registersOfBytes_two_mul (n : Nat) : registersOfBytes (2 * n) = n := by unfold registersOfBytes; omega

/-- A buffer of whole registers is the count byte and their words, high byte first (42_read_handler.md R152). -/
theorem hreadBuffer_two_mul (m : Memory) (a n : Nat) :
    hreadBuffer m a (2 * n) = BitVec.ofNat 8 (2 * n) :: (memRead m a n).flatMap be16 := by
  rw [hreadBuffer, memRead_flatMap_be16]

/-- A tick that answers OK had room for the words it answers, and has written them at FRAME_BASE
(41_telemetry_encoder.md R129). -/
theorem exec_tick_of_ok {s t : State} {ctx : Context} {ws : List Half} (h : exec .tick s = .next t)
    (hok : t.responses = s.responses ++ [⟨ctx, .ok, .words ws⟩]) :
    s.cfg.frameBase + ws.length ≤ s.cap ∧
      t.reg = memWrite s.reg s.cfg.frameBase (ws.map (registerValue s.cfg)) := by
  obtain ⟨hadmitted, -⟩ := exec_next_iff.mp h
  obtain ⟨reg, st, hexec, hle, hlt⟩ := exec_tick_next hadmitted
  cases h.symm.trans hexec
  cases List.append_cancel_left hok
  obtain hover | hfits := Nat.lt_or_ge s.cap (s.cfg.frameBase + (encodeTick s).words.length)
  · cases (hlt hover).1
  · exact ⟨hfits, (hle hfits).2⟩

/-! ### The register file that reset makes -/

/-- The empty memory is a register file of zeros, for every capacity and width (40_register_store.md R107). -/
theorem registersOk_nil (c : Config) (cap : Nat) : RegistersOk c cap [] where
  wf := rfl
  within := rfl
  width i := by rw [readReg_nil]; exact Nat.two_pow_pos _

theorem snapshotStore_registersOk (c : Config) (vs : List Half) :
    RegistersOk c (snapshotStore c vs).cap (snapshotStore c vs).reg :=
  (registersOk_nil c vs.length).memWrite (by rw [List.length_map, Nat.zero_add]) (wordsFit_map_registerValue c vs)

theorem resetStore_registersOk (c : Config) (snapshot : SnapshotInput) :
    RegistersOk c (resetStore c snapshot).cap (resetStore c snapshot).reg := by
  cases hvalues : snapshotValues snapshot with
  | none =>
    obtain ⟨-, hreg⟩ := resetStore_of_no_values c hvalues
    exact hreg ▸ registersOk_nil c _
  | some vs =>
    rw [resetStore_of_values c hvalues]
    exact snapshotStore_registersOk c vs

theorem resetState_invariant (c : Config) (inp : ResetInputs) : Invariant (resetState c inp) :=
  (invariant_iff _).mpr ⟨resetStore_registersOk c inp.snapshot, Nat.two_pow_pos _⟩

/-- A supplied snapshot without values is reported as invalid (70_reset_and_hazards.md R221). -/
theorem resetStore_snap_of_no_values (c : Config) {snapshot : SnapshotInput} (hsupplied : snapshot ≠ .notSupplied)
    (h : snapshotValues snapshot = none) : (resetStore c snapshot).snap = .snapInvalid := by
  cases snapshot with
  | notSupplied => exact absurd rfl hsupplied
  | unreadable => rfl
  | file bytes =>
    have hdecode : decodeSnapshot bytes = none := h
    simp only [resetStore, hdecode, emptyStore]

/-! ### The free draw of reset -/

theorem fIsFinite_fFinite (raw : BitVec 64) : fIsFinite (fFinite raw) = true := by
  unfold fFinite
  split
  next hraw => exact hraw
  next => decide

theorem configValid_atReset : configValid Config.atReset = true := by decide +kernel

/-! ### The obligations -/

/-- Settles O30: the tick's words stand in the registers as they are, and the read covers exactly those registers. -/
theorem hreadAfterTickSeesItsFrame : Obligations.HreadAfterTickSeesItsFrame := by
  intro s t ws a c k hwf hregW hfit hexec hok ha hc
  obtain ⟨⟨hvalid, -⟩, -⟩ := exec_next_iff.mp hexec
  obtain ⟨hcap, -, -, hcfg, -⟩ := exec_answersOnly hexec
  obtain ⟨hroom, hreg⟩ := exec_tick_of_ok hexec hok
  have hkeep : ws.map (registerValue s.cfg) = ws :=
    map_registerValue_of_fit fun w _ => lt_of_lt_of_le w.isLt (Nat.pow_le_pow_right (by decide) hregW)
  have hbuffer : hreadBuffer t.reg a.toNat c.toNat = BitVec.ofNat 8 c.toNat :: ws.flatMap be16 := by
    rw [hreg, hkeep, ha, hc, hreadBuffer_two_mul, memRead_memWrite_same hwf]
  have hbound : a.toNat + registersOfBytes c.toNat ≤ t.cap := by
    rwa [ha, hc, registersOfBytes_two_mul, hcap]
  rw [← hcfg] at hvalid hfit
  exact ⟨_, exec_hread_of_le (s := { t with ctx := .read k }) hvalid hfit hbound, by rw [← hbuffer]; rfl⟩

/-- Settles O47: the log's configuration is admitted and the free draw is finite, so reset answers, with this state. -/
theorem resetStateIsAReset : Obligations.ResetStateIsAReset :=
  bootReset_next_iff.mpr ⟨configValid_atReset,
    (resetDrawOk_iff _).mpr fun _ => ⟨fIsFinite_fFinite _, fIsFinite_fFinite _⟩, rfl⟩

/-- Settles O39: every reset leaves a `resetState`, and State.reset is one of them. -/
theorem resetMeetsTheInvariant : Obligations.ResetMeetsTheInvariant := by
  have hboot (c : Config) (inp : ResetInputs) (b : Booted) (h : bootReset c inp = .next b) : Invariant b.state := by
    obtain ⟨-, -, rfl⟩ := bootReset_next_iff.mp h
    exact resetState_invariant c inp
  exact ⟨hboot _ _ _ resetStateIsAReset, hboot⟩

/-- Settles O45: no snapshot, one with values, and one without are the three cases of reset's register file. -/
theorem resetReportsTheSnapshotStatus : Obligations.ResetReportsTheSnapshotStatus := by
  intro c inp b h
  obtain ⟨-, -, rfl⟩ := bootReset_next_iff.mp h
  by_cases hsupplied : inp.snapshot = .notSupplied
  · simp [hsupplied, resetStore, emptyStore, snapshotValues]
  · cases hvalues : snapshotValues inp.snapshot with
    | none => simp [resetStore_snap_of_no_values c hsupplied hvalues, hsupplied]
    | some vs => simp [resetStore_of_values c hvalues, snapshotStore, hsupplied]

end Sys2Proof.Machine
end
